-- ==== Sys2Proof/Word.lean ====
section
/-! DEFINITION. The data widths of the CORE (spec R7, R11): a byte is 8 bits, a word is 32 bits, both unsigned. -/

namespace Sys2Proof

/-- A byte, 8 bits, unsigned (R11). -/
abbrev Byte := BitVec 8

/-- A word, 32 bits, bit 31 the most significant (R7, R11). -/
abbrev Word := BitVec 32

end Sys2Proof
end

