-- ==== Sys2Proof/Syntax.lean ====
section
/-! DEFINITION. What a host can say to the CORE: the commands (spec/opcode_table.json, R70 to R72), the fields of the
command byte (R71), the single accesses a host makes (R33, R50, R54), and the lines of the call syntax (R77, R78). -/

namespace Sys2Proof

/-- The commands, one constructor per row of spec/opcode_table.json (R72). Their other operands are read from interface
registers and byte spaces when the command starts (R73). -/
inductive Instr where
  /-- EXPANDKEY, CMD 0x01 (R110). -/
  | expandkey
  /-- DECRYPT, CMD 0x02, and with `strip` DECRYPT.S, CMD 0x06 (R130). -/
  | decrypt (strip : Bool)
  /-- DESTROY, CMD 0x03 (R160). -/
  | destroy
deriving DecidableEq, Repr

/-- The three fields of the command byte (R71): bits 7:3, bit 2, bits 1:0. -/
structure CmdFields where
  rsv   : BitVec 5
  strip : Bool
  op    : BitVec 2
deriving DecidableEq, Repr

/-- One access of the host, or the reset input. The CORE takes them one at a time, in order (R60). -/
inductive HostAction where
  /-- The reset input, the construction of an instance (R190). -/
  | reset
  /-- A write of interface register number `n` (R33); the port carries the low bits of `v` that the register has. -/
  | writeReg (n v : Nat)
  /-- A read of interface register number `n` (R33). -/
  | readReg (n : Nat)
  /-- A write of one byte of the space KEYIN (R50). -/
  | writeKeyin (a : Nat) (b : Byte)
  /-- A write of one byte of the space IVIN (R50). -/
  | writeIvin (a : Nat) (b : Byte)
  /-- A write of one byte of the space IN (R51). -/
  | writeIn (a : Nat) (b : Byte)
  /-- A read of one byte of the space OUT (R52). -/
  | readOut (a : Nat)
deriving DecidableEq, Repr

/-- A line of the textual call syntax (R77). -/
inductive Line where
  | expandkey (key : List Byte)
  | decrypt (buffer : List Byte) (offset : Nat) (iv : Vector Byte 16) (strip : Bool)
  | destroy
  | reset
deriving DecidableEq, Repr

/-- The pseudo-operation ECBDEC: DECRYPT of one block at offset 0 with a zero IV (R78). -/
def Line.ecbdec (block : Vector Byte 16) : Line :=
  .decrypt block.toList 0 (Vector.replicate 16 0) false

end Sys2Proof
end

