-- ==== Sys2Proof/WellFormed.lean ====
section
/-! DEFINITION. Which command bytes are commands (spec R71, R75), and which host accesses the interface has (R33, R50). -/

namespace Sys2Proof

/-- The operation code of each command (R71). -/
def Instr.fields : Instr → CmdFields
  | .expandkey     => { rsv := 0, strip := false, op := 1 }
  | .decrypt strip => { rsv := 0, strip := strip, op := 2 }
  | .destroy       => { rsv := 0, strip := false, op := 3 }

/-- R71, R75: RSV must be 0. -/
def CmdFields.rsvZero (f : CmdFields) : Bool := f.rsv == 0

/-- R71: OP = 00 is reserved. -/
def CmdFields.opUsed (f : CmdFields) : Bool := f.op != 0

/-- R71: STRIP is meaningful for DECRYPT (OP = 10) only and must be 0 for every other OP. -/
def CmdFields.stripAllowed (f : CmdFields) : Bool := !f.strip || f.op == 2

/-- The fields of a command byte that is a command. -/
def CmdFields.wellFormed (f : CmdFields) : Bool := f.rsvZero && f.opUsed && f.stripAllowed

/-- An instruction is well formed when the fields it stands for are those of a command. -/
def Instr.wellFormed (i : Instr) : Bool := i.fields.wellFormed

/-- The register numbers a host may write: CMD, KEYLEN, OFFSET, IN_LEN, KEYIN, IVIN (R33). -/
def hostWritable (n : Nat) : Bool := n == 0 || n == 2 || n == 3 || n == 4 || (8 ≤ n && n ≤ 19)

/-- The register numbers a host may read: STATUS and OUT_LEN (R33). -/
def hostReadable (n : Nat) : Bool := n == 1 || n == 5

/-- A host access that names a register or an address the interface has. Whether an OUT address exists depends on
OUT_LEN and is the machine's to say. -/
def HostAction.wellFormed : HostAction → Bool
  | .reset          => true
  | .writeReg n _   => hostWritable n
  | .readReg n      => hostReadable n
  | .writeKeyin a _ => a < 32
  | .writeIvin a _  => a < 16
  | .writeIn _ _    => true
  | .readOut _      => true

end Sys2Proof
end

