-- ==== Sys2Proof/Decode.lean ====
section
/-! DEFINITION. Decoding the command byte, total on any bytes and rejecting by name (spec R71, R72, R75, R76), and the
encoder beside it. -/

namespace Sys2Proof

/-- Why a byte is no command (R75). -/
inductive DecodeError where
  /-- There is no byte to decode. -/
  | noByte
  /-- A bit of RSV, bits 7:3, is set. -/
  | reservedBits
  /-- OP = 00. -/
  | reservedOp
  /-- STRIP is set with EXPANDKEY or DESTROY. -/
  | stripNotAllowed
deriving DecidableEq, Repr

/-- The fields of a command byte (R71). -/
def fieldsOf (b : Byte) : CmdFields where
  rsv   := b.extractLsb' 3 5
  strip := b.getLsbD 2
  op    := b.extractLsb' 0 2

/-- The command byte with these fields (R71). -/
def byteOfFields (f : CmdFields) : Byte := f.rsv ++ (BitVec.ofBool f.strip ++ f.op)

/-- The command a byte stands for; it depends on the byte alone (R76). -/
def decodeCmd (b : Byte) : Except DecodeError Instr :=
  let f := fieldsOf b
  if !f.rsvZero then .error .reservedBits
  else if !f.opUsed then .error .reservedOp
  else if !f.stripAllowed then .error .stripNotAllowed
  else if f.op = 1 then .ok .expandkey
  else if f.op = 2 then .ok (.decrypt f.strip)
  else .ok .destroy

/-- The command at the head of a byte string and the rest; every command is one byte (R71, R76). -/
def decode : List Byte → Except DecodeError (Instr × List Byte)
  | [] => .error .noByte
  | b :: rest => (decodeCmd b).map (fun i => (i, rest))

/-- The command byte of a command (R72). -/
def encodeCmd (i : Instr) : Byte := byteOfFields i.fields

/-- The bytes of a command (R71). -/
def encode (i : Instr) : List Byte := [encodeCmd i]

/-- The command byte of a table word of `nbits` bits, the bits above them zero. -/
def tableByte (nbits w : Nat) : Byte := BitVec.ofNat 8 (w % 2 ^ nbits)

/-- What the decoder reads from a word numbered as spec/opcode_table.json numbers it. -/
def decodeTableWord (nbits w : Nat) : Option Instr :=
  match decode [tableByte nbits w] with
  | .ok (i, _) => some i
  | .error _ => none

end Sys2Proof
end

