-- ==== Sys2Proof/Config.lean ====
section
/-! DEFINITION. What an implementation fixes, and the free values: constants without a body, of which nothing can be
proved. A meaning applies them to the plain counter `draws` of the state, so that every draw is a fresh value. -/

namespace Sys2Proof

/-- What a byte of a byte space reads as where nothing has been written. For OUT it is the zero fill of R140; for IN,
which the spec leaves unspecified at reset (R39, R191), it is a DESIGN CHOICE, unsafe (log entry 3). -/
def Config.unlisted : Byte := 0x00#8

/-- The storage capacity of KEY in words (R25). -/
abbrev Config.keyCapacity : Nat := 8

/-- The storage capacity of KS and of INVKS in words (R26). -/
abbrev Config.scheduleCapacity : Nat := 60

/-- FREE VALUE (log entry 5): a byte of OUT that a DECRYPT with no key loaded leaves unspecified (R144, R194, U3). -/
opaque Config.freeByte : Nat → Byte

/-- FREE VALUE (log entry 6): a working word V, W, S or T between commands (R29, U11). -/
opaque Config.freeWord : Nat → Word

/-- FREE VALUE (log entry 6): a sequencer register OFF, RND or KSP between commands (R29, R30, U11). -/
opaque Config.freeCount : Nat → Nat

end Sys2Proof
end

