-- ==== Sys2Proof/Machine/Bits.lean ====
section
/-! DEFINITION. Bytes inside words (spec R11) and the one byte order of the CORE, big-endian (R55). -/

namespace Sys2Proof.Machine

/-- `byte(w, n)` of R11, that is `w[8n+7:8n]`; byte 3 is the most significant. -/
def byteAt (w : Word) (n : Nat) : Byte := w.extractLsb' (8 * n) 8

/-- The word whose bytes are `b3`, `b2`, `b1`, `b0`, most significant first (R55). -/
def wordOf (b3 b2 b1 b0 : Byte) : Word := b3 ++ b2 ++ b1 ++ b0

/-- The big-endian word at byte index `4 * i` of a byte string (R12, R55, R73); the missing bytes of a string that is
too short would read as zero, and no meaning reads one. -/
def be32 (bytes : List Byte) (i : Nat) : Word :=
  wordOf (bytes.getD (4 * i) 0) (bytes.getD (4 * i + 1) 0) (bytes.getD (4 * i + 2) 0) (bytes.getD (4 * i + 3) 0)

/-- `zext_32` of a byte (R12). -/
def zext32 (b : Byte) : Word := b.setWidth 32

end Sys2Proof.Machine
end

