-- ==== Sys2Proof/Machine/Gf.lean ====
section
/-! DEFINITION. GFT, the Galois-field S-box and T-table generator (spec file 40): the field arithmetic, the contents of
every table, and the table state that INIT leaves (R90 to R99). -/

namespace Sys2Proof.Machine

/-- A table of 256 words indexed by a byte (R21, R22, R50), held as the spec prints one: 16 rows of 16, row = high
nibble of the index, column = low nibble. -/
abbrev Table := Vector (Vector Word 16) 16

/-- Four mix tables, SUBMIX[0..3] or INVSUBMIX[0..3] (R22). -/
structure MixTables where
  k0 : Table
  k1 : Table
  k2 : Table
  k3 : Table
deriving DecidableEq, Repr

/-- The table state of R20 (a): the two S-boxes, the eight mix tables and the round constants. -/
structure Tables where
  sbox      : Table
  invSbox   : Table
  subMix    : MixTables
  invSubMix : MixTables
  rcon      : Vector Byte 11
deriving DecidableEq, Repr

/-- Entry `b` of a table; a byte index is always in range (R53). -/
def lookup (t : Table) (b : Byte) : Word :=
  (t[b.toNat / 16]'(by have := b.isLt; omega))[b.toNat % 16]'(by omega)

/-- The table whose entry `x` is `f x`. -/
def tabulate (f : Byte → Word) : Table :=
  ⟨⟨(List.range 16).map fun i =>
    ⟨⟨(List.range 16).map fun j => f (BitVec.ofNat 8 (16 * i + j))⟩, by simp⟩⟩, by simp⟩

/-- Doubling in GF(2^8), `d[i] = i<128 ? i<<1 : (i<<1)^0x11b`, the shift on 9 bits (R91). -/
def double (x : Byte) : Byte :=
  let wide : BitVec 9 := x.setWidth 9 <<< 1
  if x.toNat < 128 then wide.setWidth 8 else (wide ^^^ 0x11b#9).setWidth 8

/-- The loop of `gmul` (R92), `n` iterations left: where the low bit of `b` is 1 add `a`; then double `a`. -/
def gmulLoop : Nat → Byte → Byte → Byte → Byte
  | 0, r, _, _ => r
  | n + 1, r, a, b => gmulLoop n (if b.getLsbD 0 then r ^^^ a else r) (double a) (b >>> 1)

/-- Multiplication in GF(2^8) modulo 0x11b (R92). -/
def gmul (a b : Byte) : Byte := gmulLoop 8 0 a b

/-- Inversion in GF(2^8) as `a^254` (R93); `ginv 0 = 0`. -/
def ginv (a : Byte) : Byte :=
  let a2 := gmul a a
  let a4 := gmul a2 a2
  let a8 := gmul a4 a4
  let a16 := gmul a8 a8
  let a32 := gmul a16 a16
  let a64 := gmul a32 a32
  let a128 := gmul a64 a64
  gmul a2 (gmul a4 (gmul a8 (gmul a16 (gmul a32 (gmul a64 a128)))))

/-- The AES affine transform (R94). -/
def affine (b : Byte) : Byte :=
  b ^^^ b.rotateLeft 1 ^^^ b.rotateLeft 2 ^^^ b.rotateLeft 3 ^^^ b.rotateLeft 4 ^^^ 0x63

/-- SBOX as R95 prints it: a row is one high nibble, its sixteen bytes in column order, first byte most significant.
The values are `affine (ginv x)` (`sboxByte_eq_affine_ginv`). -/
def sboxRows : List Nat :=
[ 0x637c777bf26b6fc53001672bfed7ab76,
  0xca82c97dfa5947f0add4a2af9ca472c0,
  0xb7fd9326363ff7cc34a5e5f171d83115,
  0x04c723c31896059a071280e2eb27b275,
  0x09832c1a1b6e5aa0523bd6b329e32f84,
  0x53d100ed20fcb15b6acbbe394a4c58cf,
  0xd0efaafb434d338545f9027f503c9fa8,
  0x51a3408f929d38f5bcb6da2110fff3d2,
  0xcd0c13ec5f974417c4a77e3d645d1973,
  0x60814fdc222a908846eeb814de5e0bdb,
  0xe0323a0a4906245cc2d3ac629195e479,
  0xe7c8376d8dd54ea96c56f4ea657aae08,
  0xba78252e1ca6b4c6e8dd741f4bbd8b8a,
  0x703eb5664803f60e613557b986c11d9e,
  0xe1f8981169d98e949b1e87e9ce5528df,
  0x8ca1890dbfe6426841992d0fb054bb16 ]

/-- INVSBOX as R96 prints it, the inverse permutation of SBOX (`invSboxByte_sboxByte`,
`sboxByte_invSboxByte`). -/
def invSboxRows : List Nat :=
[ 0x52096ad53036a538bf40a39e81f3d7fb,
  0x7ce339829b2fff87348e4344c4dee9cb,
  0x547b9432a6c2233dee4c950b42fac34e,
  0x082ea16628d924b2765ba2496d8bd125,
  0x72f8f66486689816d4a45ccc5d65b692,
  0x6c704850fdedb9da5e154657a78d9d84,
  0x90d8ab008cbcd30af7e45805b8b34506,
  0xd02c1e8fca3f0f02c1afbd0301138a6b,
  0x3a9111414f67dcea97f2cfcef0b4e673,
  0x96ac7422e7ad3585e2f937e81c75df6e,
  0x47f11a711d29c5896fb7620eaa18be1b,
  0xfc563e4bc6d279209adbc0fe78cd5af4,
  0x1fdda8338807c731b11210592780ec5f,
  0x60517fa919b54a0d2de57a9f93c99cef,
  0xa0e03b4dae2af5b0c8ebbb3c83539961,
  0x172b047eba77d626e169146355210c7d ]

/-- The byte of column `x % 16` in row `x / 16`. -/
def byteInRows (rows : List Nat) (x : Byte) : Byte :=
  BitVec.ofNat 8 (rows.getD (x.toNat / 16) 0 >>> (8 * (15 - x.toNat % 16)))

/-- The S-box value of a byte (R95). -/
def sboxByte (x : Byte) : Byte := byteInRows sboxRows x

/-- The inverse S-box value of a byte (R96). -/
def invSboxByte (x : Byte) : Byte := byteInRows invSboxRows x

/-- SUBMIX[0][x] = (2s, s, s, 3s) with s = SBOX[x] (R97). -/
def subMixWord (x : Byte) : Word :=
  let s := sboxByte x
  wordOf (gmul 2 s) s s (gmul 3 s)

/-- INVSUBMIX[0][x] = (14y, 9y, 13y, 11y) with y = INVSBOX[x] (R98). -/
def invSubMixWord (x : Byte) : Word :=
  let y := invSboxByte x
  wordOf (gmul 14 y) (gmul 9 y) (gmul 13 y) (gmul 11 y)

/-- Table k of a family is table 0 rotated right by 8k bits (R97, R98). -/
def mixTables (f : Byte → Word) : MixTables where
  k0 := tabulate f
  k1 := tabulate (fun x => (f x).rotateRight 8)
  k2 := tabulate (fun x => (f x).rotateRight 16)
  k3 := tabulate (fun x => (f x).rotateRight 24)

/-- The round constants, index 0 a filler no rule reads (R99). -/
def rconBytes : Vector Byte 11 := #v[0x00, 0x01, 0x02, 0x04, 0x08, 0x10, 0x20, 0x40, 0x80, 0x1b, 0x36]

/-- What INIT leaves in the tables (R90); it has no input and no failure mode. -/
def initTables : Tables where
  sbox      := tabulate (fun x => zext32 (sboxByte x))
  invSbox   := tabulate (fun x => zext32 (invSboxByte x))
  subMix    := mixTables subMixWord
  invSubMix := mixTables invSubMixWord
  rcon      := rconBytes

end Sys2Proof.Machine
end

