-- ==== Sys2Proof/Machine/State.lean ====
section
/-! DEFINITION. The whole state of the CORE (spec file 10), why a step may stop, and the state after reset (R39, R190). -/

namespace Sys2Proof.Machine

/-- A byte space as a list of (address, byte), addresses strictly rising, no byte equal to `Config.unlisted`
(`Memory.wf` in Ops.lean). -/
abbrev Memory := List Host.Cell

/-- Four 32-bit words: V[0..3], W[0..3], S[0..3], T[0..3], or one block of a schedule. -/
structure Quad where
  w0 : Word
  w1 : Word
  w2 : Word
  w3 : Word
deriving DecidableEq, Repr

/-- Key state, R20 (b): the storage cells of KEY, KS and INVKS (R25, R26) and the counts that say how many of them are
the arrays. Cells at and above the count are not part of an array (R114). -/
structure KeyState where
  keyCells   : Vector Word Config.keyCapacity
  keySize    : Nat
  ksCells    : Vector Word Config.scheduleCapacity
  invksCells : Vector Word Config.scheduleCapacity
  ksRows     : Nat
deriving DecidableEq, Repr

/-- Working state, R20 (c): the working words (R28) and the sequencer registers (R30) of the BDP. -/
structure Working where
  v   : Quad
  w   : Quad
  s   : Quad
  t   : Quad
  off : Nat
  rnd : Nat
  ksp : Nat
deriving DecidableEq, Repr

/-- The state: the four classes of R20, the byte spaces of R50, the ghost counter of R36, and three fields of the
model's own (`draws`, `host`, and `cmd` as the place where a command waits). -/
structure State where
  /-- The ten tables and RCON (R21 to R24). -/
  tables      : Tables
  /-- KEY, KEYSIZE, KS, INVKS, KSROWS (R25, R26). -/
  key         : KeyState
  /-- V, W, S, T, OFF, RND, KSP (R28 to R30). -/
  work        : Working
  /-- Register 0, CMD: the byte written and not yet performed (R33, R71). -/
  cmd         : Option Byte
  /-- Register 2, KEYLEN (R33). -/
  keylen      : Nat
  /-- Register 3, OFFSET (R33). -/
  offset      : Nat
  /-- Register 4, IN_LEN (R33). -/
  inLen       : Nat
  /-- Register 5, OUT_LEN (R33). -/
  outLen      : Nat
  /-- Registers 8 to 15, KEYIN[0..31] (R33, R34). -/
  keyin       : Vector Byte 32
  /-- Registers 16 to 19, IVIN[0..15] (R33, R34). -/
  ivin        : Vector Byte 16
  /-- STATUS bit 0 (R31). -/
  tablesReady : Bool
  /-- STATUS bit 1 (R31). -/
  keyLoaded   : Bool
  /-- STATUS bit 2 (R31). -/
  destroyed   : Bool
  /-- STATUS bits 7:4, ERR (R32). -/
  err         : BitVec 4
  /-- The byte space IN, owned by the host (R51). -/
  inMem       : Memory
  /-- The byte space OUT (R52). -/
  outMem      : Memory
  /-- The ghost counter EXPANSIONS (R36). -/
  expansions  : Nat
  /-- The model's own: how many free values have been drawn (log entry 4). -/
  draws       : Nat
  /-- The model's own: what the host is going to do, next first (log entry 1). -/
  host        : List HostAction
deriving DecidableEq, Repr

/-- The byte spaces a host reaches whose addresses end somewhere (R50). -/
inductive Space where
  | keyin
  | ivin
  | out
deriving DecidableEq, Repr

/-- Why the machine stops with a fault. No command raises one: the CORE has no trap of any kind (R57, R175). -/
inductive Fault where
  /-- Raised by a host access at an address the space does not have (R50, R151): KEYIN at or above 32, IVIN at or above
  16, OUT at or above OUT_LEN. Safe: the spec gives such an access no meaning. -/
  | noSuchAddress (space : Space) (a : Nat)
deriving DecidableEq, Repr

/-- Why a step has no meaning. -/
inductive Refusal where
  /-- Raised by an arm of `exec` that has no meaning yet; none is left. Safe. -/
  | notModelled (mnemonic : String)
  /-- Raised by EXPANDKEY and DECRYPT while DESTROYED = 1, which the spec calls undefined (R164, R196, U5). Safe. -/
  | destroyedInstance
  /-- Raised by DECRYPT where OFFSET > IN_LEN or (IN_LEN - OFFSET) mod 16 is not 0, which the spec calls undefined
  (R56, R147, U1). Safe. -/
  | bufferContract
  /-- Raised by a host access to a register number that is not implemented, a read of a write-only register or a write
  of a read-only one, to which the spec gives no meaning (R33, U13). Safe. -/
  | registerAccess (n : Nat)
deriving DecidableEq, Repr

/-- Four zero words. -/
def Quad.zero : Quad := ⟨0, 0, 0, 0⟩

/-- The key state with no key loaded (R39); the cells' contents at reset are a DESIGN CHOICE (log entry 2). -/
def KeyState.empty : KeyState where
  keyCells   := Vector.replicate _ 0
  keySize    := 0
  ksCells    := Vector.replicate _ 0
  invksCells := Vector.replicate _ 0
  ksRows     := 0

/-- The state after reset (R39, R190). The working registers, the host-written registers and IN, which the spec leaves
unspecified (R191), hold the zeros of log entries 2 and 3. -/
def State.reset : State where
  tables      := initTables
  key         := KeyState.empty
  work        := { v := Quad.zero, w := Quad.zero, s := Quad.zero, t := Quad.zero, off := 0, rnd := 0, ksp := 0 }
  cmd         := none
  keylen      := 0
  offset      := 0
  inLen       := 0
  outLen      := 0
  keyin       := Vector.replicate _ 0
  ivin        := Vector.replicate _ 0
  tablesReady := true
  keyLoaded   := false
  destroyed   := false
  err         := 0
  inMem       := []
  outMem      := []
  expansions  := 0
  draws       := 0
  host        := []

end Sys2Proof.Machine
end

