-- ==== Sys2Proof/Machine/Ops.lean ====
section
/-! DEFINITION. The named operations over the byte spaces, the storage cells, the error outcome of a command and the
free values (spec files 10, 20, 60). -/

namespace Sys2Proof.Machine

/-- What every meaning answers with. -/
abbrev Result := Host.Outcome State Fault Refusal

/-- The canonical form of a byte space: addresses strictly rising, no byte that an unlisted address reads as anyway. -/
abbrev Memory.wf (m : Memory) : Prop :=
  m.Pairwise (fun c c' => c.1 < c'.1) ∧ ∀ c ∈ m, c.2 ≠ Config.unlisted

/-- One byte of a byte space (R12, R58); a read has no side effect. -/
def Memory.read : Memory → Nat → Byte
  | [], _ => Config.unlisted
  | (x, v) :: m, a => if x = a then v else Memory.read m a

/-- Writing one byte, in canonical form: the value of an unlisted address removes the entry. -/
def Memory.write : Memory → Nat → Byte → Memory
  | [], a, b => if b = Config.unlisted then [] else [(a, b)]
  | (x, v) :: m, a, b =>
    if x < a then (x, v) :: Memory.write m a b
    else if x = a then (if b = Config.unlisted then m else (a, b) :: m)
    else (if b = Config.unlisted then (x, v) :: m else (a, b) :: (x, v) :: m)

/-- The byte space without the addresses at and above `n` (R151, U12). -/
def Memory.truncate (m : Memory) (n : Nat) : Memory := m.filter (fun c => c.1 < n)

/-- Writing bytes at rising addresses from `a`. -/
def Memory.writeBytes : Memory → Nat → List Byte → Memory
  | m, _, [] => m
  | m, a, b :: bs => Memory.writeBytes (m.write a b) (a + 1) bs

/-- The `n` bytes at rising addresses from `a`. -/
def Memory.readBytes (m : Memory) (a : Nat) : Nat → List Byte
  | 0 => []
  | n + 1 => m.read a :: Memory.readBytes m (a + 1) n

/-- `BE32(S, a)` of R12: the byte at the lowest address is the most significant (R55). -/
def Memory.readWord (m : Memory) (a : Nat) : Word :=
  wordOf (m.read a) (m.read (a + 1)) (m.read (a + 2)) (m.read (a + 3))

/-- `MemWrite(S, a, 4, w)` of R12, most significant byte at address `a` (R55). -/
def Memory.writeWord (m : Memory) (a : Nat) (w : Word) : Memory :=
  m.writeBytes a [byteAt w 3, byteAt w 2, byteAt w 1, byteAt w 0]

/-- Storage cells with the words `ws` in their first places and the rest as it was (R114). -/
def overwrite {n : Nat} (cells : Vector Word n) (ws : List Word) : Vector Word n :=
  ⟨⟨(ws ++ cells.toList.drop ws.length).take n⟩, by simp; omega⟩

/-- The array KEY: the first KEYSIZE of its cells (R25). -/
def KeyState.words (k : KeyState) : List Word := k.keyCells.toList.take k.keySize

/-- The array KS: the first KSROWS of its cells (R26). -/
def KeyState.ks (k : KeyState) : List Word := k.ksCells.toList.take k.ksRows

/-- The array INVKS: the first KSROWS of its cells (R26). -/
def KeyState.invks (k : KeyState) : List Word := k.invksCells.toList.take k.ksRows

/-- ERR = 1 (R170). -/
def errInvalidKeySize : BitVec 4 := 1

/-- ERR = 2 (R170). -/
def errIllegalCommand : BitVec 4 := 2

/-- TAKING AN EXCEPTION. The CORE has no handler, vector or saved context: the whole of it is ERR <- code, and nothing
else is written (R170, R172, R173, R179). -/
def raiseError (code : BitVec 4) (s : State) : Result := .next { s with err := code }

/-- THE RETURN beside it: there is no return instruction and nothing to restore (R180); a command that completes writes
ERR <- 0, which is all that ends a failure's visibility (R174). -/
def complete (s : State) : Result := .next { s with err := 0 }

/-- A command byte that is no command, in any lifecycle state (R75, R173). -/
def illegalCommand (s : State) : Result := raiseError errIllegalCommand s

/-- The command waiting in CMD, taken out of it (R71). -/
def State.takeCmd (s : State) : Option (Byte × State) :=
  s.cmd.map (fun b => (b, { s with cmd := none }))

/-- Free bytes `n`, `n + 1`, ... (U3). -/
def freeBytes (n k : Nat) : List Byte := (List.range k).map (fun i => Config.freeByte (n + i))

/-- Four free words from draw `n` on (U11). -/
def freeQuad (n : Nat) : Quad :=
  ⟨Config.freeWord n, Config.freeWord (n + 1), Config.freeWord (n + 2), Config.freeWord (n + 3)⟩

/-- The working registers after a command: the spec gives them no value between commands (R29, R30, D20, U11), so all
nineteen are free. -/
def releaseWork (s : State) : State :=
  { s with
    work := { v := freeQuad s.draws, w := freeQuad (s.draws + 4), s := freeQuad (s.draws + 8),
              t := freeQuad (s.draws + 12), off := Config.freeCount (s.draws + 16),
              rnd := Config.freeCount (s.draws + 17), ksp := Config.freeCount (s.draws + 18) }
    draws := s.draws + 19 }

end Sys2Proof.Machine
end

