-- ==== Sys2Proof/Machine/Operands.lean ====
section
/-! DEFINITION. The operands of the commands (spec R73), read from the interface registers and byte spaces when a command
starts (R37), and the conditions the spec puts on them. -/

namespace Sys2Proof.Machine

/-- R111: the key lengths that are valid. -/
def keyLengthValid (n : Nat) : Bool := n == 16 || n == 24 || n == 32

/-- The key operand as words, K'[i] = BE32(KEYIN, 4i) for i < KEYLEN div 4 (R112). -/
def keyOperand (s : State) : List Word := (List.range (s.keylen / 4)).map (be32 s.keyin.toList)

/-- The IV as four big-endian words (R132). -/
def ivOperand (s : State) : Quad :=
  ⟨be32 s.ivin.toList 0, be32 s.ivin.toList 1, be32 s.ivin.toList 2, be32 s.ivin.toList 3⟩

/-- The block at byte address `a` as four big-endian words (R133). -/
def readBlock (m : Memory) (a : Nat) : Quad :=
  ⟨m.readWord a, m.readWord (a + 4), m.readWord (a + 8), m.readWord (a + 12)⟩

/-- The block store of R138 at byte address `a`. -/
def writeBlock (m : Memory) (a : Nat) (p : Quad) : Memory :=
  (((m.writeWord a p.w0).writeWord (a + 4) p.w1).writeWord (a + 8) p.w2).writeWord (a + 12) p.w3

/-- The contract of DECRYPT on its buffer operands (R56). -/
def bufferContract (s : State) : Bool := s.offset ≤ s.inLen && (s.inLen - s.offset) % 16 == 0

/-- The number of blocks of a DECRYPT (R140). -/
def blockCount (s : State) : Nat := (s.inLen - s.offset) / 16

end Sys2Proof.Machine
end

