-- ==== Sys2Proof/Machine/PaddingStrip.lean ====
section
/-! DEFINITION. PSU, the PKCS#7 padding stripper: UNPAD, the tail of DECRYPT.S (spec file 43). -/

namespace Sys2Proof.Machine

/-- OUT_LEN after UNPAD of a buffer of `n` bytes whose last byte is `p`: `p` bytes fewer, or 0 where the buffer is
shorter than `p` (R151, R152, UNPAD_OVERRUN = empty); no other byte is looked at. -/
def strippedLength (n p : Nat) : Nat := if p > n then 0 else n - p

/-- UNPAD (R150): an empty buffer has no last byte and stays as it is (R153); the bytes cut off are no longer part of
OUT (R151, U12). -/
def unpad (s : State) : State :=
  if s.outLen = 0 then s
  else
    let n := strippedLength s.outLen (s.outMem.read (s.outLen - 1)).toNat
    { s with outLen := n, outMem := s.outMem.truncate n }

end Sys2Proof.Machine
end

