-- ==== Sys2Proof/Machine/BlockDecrypt.lean ====
section
/-! DEFINITION. BDP, the inverse cipher block processor with CBC chaining: DECRYPT (spec file 42). -/

namespace Sys2Proof.Machine

/-- Bytewise over the four words. -/
def Quad.xor (a b : Quad) : Quad := ⟨a.w0 ^^^ b.w0, a.w1 ^^^ b.w1, a.w2 ^^^ b.w2, a.w3 ^^^ b.w3⟩

/-- The word-order permutation (w0, w3, w2, w1), its own inverse (R134, R138). -/
def Quad.permute (a : Quad) : Quad := ⟨a.w0, a.w3, a.w2, a.w1⟩

/-- Row `i` of INVKS; every index a rule forms is below KSROWS (R53). -/
def invksRow (k : KeyState) (i : Nat) : Word := k.invksCells.toList.getD i 0

/-- INVKS[i .. i+3] (R134, R135, R136). -/
def invksQuad (k : KeyState) (i : Nat) : Quad :=
  ⟨invksRow k i, invksRow k (i + 1), invksRow k (i + 2), invksRow k (i + 3)⟩

/-- The four lookups of one word of a full round: table k is indexed by byte 3-k of state word (c+k) mod 4 (R135). -/
def mixLookup (m : MixTables) (a b c d : Word) : Word :=
  lookup m.k0 (byteAt a 3) ^^^ lookup m.k1 (byteAt b 2) ^^^ lookup m.k2 (byteAt c 1) ^^^ lookup m.k3 (byteAt d 0)

/-- One full round (R135): all four words from the same old S. -/
def fullRound (m : MixTables) (rk s : Quad) : Quad :=
  Quad.xor ⟨mixLookup m s.w0 s.w1 s.w2 s.w3, mixLookup m s.w1 s.w2 s.w3 s.w0,
    mixLookup m s.w2 s.w3 s.w0 s.w1, mixLookup m s.w3 s.w0 s.w1 s.w2⟩ rk

/-- The four inverse S-box lookups of one word of the final round (R136). -/
def subLookup (inv : Table) (a b c d : Word) : Word :=
  (lookup inv (byteAt a 3) <<< 24) ||| (lookup inv (byteAt b 2) <<< 16) |||
    (lookup inv (byteAt c 1) <<< 8) ||| lookup inv (byteAt d 0)

/-- The final round (R136). -/
def finalRound (inv : Table) (rk s : Quad) : Quad :=
  Quad.xor ⟨subLookup inv s.w0 s.w1 s.w2 s.w3, subLookup inv s.w1 s.w2 s.w3 s.w0,
    subLookup inv s.w2 s.w3 s.w0 s.w1, subLookup inv s.w3 s.w0 s.w1 s.w2⟩ rk

/-- `n` full rounds, the first with the round key at row `ksp` (R135, R137). -/
def fullRounds (m : MixTables) (k : KeyState) : Nat → Nat → Quad → Quad
  | 0, _, s => s
  | n + 1, ksp, s => fullRounds m k n (ksp + 4) (fullRound m (invksQuad k ksp) s)

/-- nRounds = KEYSIZE + 6 (R8). -/
def roundCount (k : KeyState) : Nat := k.keySize + 6

/-- S after the full rounds of a block `w`: whitening (R134), then nRounds - 1 full rounds (R135). -/
def roundsOf (tb : Tables) (k : KeyState) (w : Quad) : Quad :=
  fullRounds tb.invSubMix k (roundCount k - 1) 4 (w.permute.xor (invksQuad k 0))

/-- T after the final round (R136), from the S of the full rounds. -/
def finalOf (tb : Tables) (k : KeyState) (s : Quad) : Quad :=
  finalRound tb.invSbox (invksQuad k (4 * roundCount k)) s

/-- The inverse cipher of one block as the datapath computes it, in natural word order (R134 to R138). -/
def cipherBlock (tb : Tables) (k : KeyState) (w : Quad) : Quad := (finalOf tb k (roundsOf tb k w)).permute

/-- One pass of the block loop (R133 to R139): load at OFF, decrypt, XOR with V, store at OFF, V <- W, OFF <- OFF + 16. -/
def blockStep (s : State) : State :=
  let w := readBlock s.inMem s.work.off
  let x := roundsOf s.tables s.key w
  let t := finalOf s.tables s.key x
  { s with
    outMem := writeBlock s.outMem s.work.off (t.permute.xor s.work.v)
    work := { v := w, w := w, s := x, t := t, off := s.work.off + 16, rnd := roundCount s.key,
              ksp := 4 * roundCount s.key } }

/-- The block loop (R140), `n` blocks left. -/
def blockLoop : Nat → State → State
  | 0, s => s
  | n + 1, s => blockLoop n (blockStep s)

/-- The start of a DECRYPT: OUT becomes IN_LEN zero bytes (R140), V the IV (R132), OFF the offset. -/
def startDecrypt (s : State) : State :=
  { s with
    outMem := [], outLen := s.inLen
    work := { s.work with v := ivOperand s, off := s.offset } }

/-- What the blocks leave where no key is loaded: the bytes OUT[OFFSET..IN_LEN-1] are unspecified (R144, R194, U3), so
each is a free value. -/
def garbageBlocks (s : State) : State :=
  { s with
    outMem := s.outMem.writeBytes s.offset (freeBytes s.draws (s.inLen - s.offset))
    draws := s.draws + (s.inLen - s.offset) }

/-- OUT as the block loop leaves it (R140, R144). -/
def decryptBlocks (s : State) : State :=
  if s.key.keySize = 0 then garbageBlocks (startDecrypt s) else blockLoop (blockCount s) (startDecrypt s)

/-- STRIP (R145): UNPAD runs once, at the end of the whole buffer. -/
def stripIf (strip : Bool) (s : State) : State := if strip then unpad s else s

/-- DECRYPT and DECRYPT.S (R130). A destroyed instance comes before the operands (R177); out of contract the command has
no defined behaviour (R147). It never fails (R144). -/
def execDecrypt (strip : Bool) (s : State) : Result :=
  if s.destroyed then .refused .destroyedInstance
  else if !bufferContract s then .refused .bufferContract
  else complete (releaseWork (stripIf strip (decryptBlocks s)))

end Sys2Proof.Machine
end

