-- ==== Sys2Proof/Machine/Flags.lean ====
section
/-! DEFINITION. The flags, STATUS and the lifecycle states (spec R31 to R33, R195). -/

namespace Sys2Proof.Machine

/-- STATUS: bit 0 TABLES_READY, bit 1 KEY_LOADED, bit 2 DESTROYED, bit 3 reads 0, bits 7:4 ERR (R33). -/
def State.status (s : State) : Byte :=
  s.err ++ (0#1 ++ (BitVec.ofBool s.destroyed ++ (BitVec.ofBool s.keyLoaded ++ BitVec.ofBool s.tablesReady)))

/-- The three lifecycle states (R195). -/
inductive Lifecycle where
  | noKey
  | keyed
  | destroyed
deriving DecidableEq, Repr

/-- The lifecycle state the flags tell; no other combination is reachable (R195). -/
def State.lifecycle (s : State) : Option Lifecycle :=
  match s.tablesReady, s.keyLoaded, s.destroyed with
  | true, false, false => some .noKey
  | true, true, false  => some .keyed
  | false, false, true => some .destroyed
  | _, _, _            => none

/-- The flag a full expansion sets (R31, R110). -/
def setKeyLoaded (s : State) : State := { s with keyLoaded := true }

/-- The flags DESTROY leaves (R160). -/
def setDestroyed (s : State) : State := { s with tablesReady := false, keyLoaded := false, destroyed := true }

end Sys2Proof.Machine
end

