-- ==== Sys2Proof/Machine/KeySchedule.lean ====
section
/-! DEFINITION. KSE, the key scheduler and inverse key schedule expander: EXPANDKEY (spec file 41). -/

namespace Sys2Proof.Machine

/-- RotWord: rotate left by one byte (R116). -/
def rotWord (t : Word) : Word := t.rotateLeft 8

/-- SubWord: each byte replaced by its S-box image, in place (R116). -/
def subWord (sbox : Table) (t : Word) : Word :=
  (lookup sbox (byteAt t 3) <<< 24) ||| (lookup sbox (byteAt t 2) <<< 16) |||
    (lookup sbox (byteAt t 1) <<< 8) ||| lookup sbox (byteAt t 0)

/-- IMC, InvMixColumns of one word through the tables (R118). -/
def imc (tb : Tables) (t : Word) : Word :=
  lookup tb.invSubMix.k0 ((lookup tb.sbox (byteAt t 3)).setWidth 8) ^^^
    lookup tb.invSubMix.k1 ((lookup tb.sbox (byteAt t 2)).setWidth 8) ^^^
    lookup tb.invSubMix.k2 ((lookup tb.sbox (byteAt t 1)).setWidth 8) ^^^
    lookup tb.invSubMix.k3 ((lookup tb.sbox (byteAt t 0)).setWidth 8)

/-- RCON[i]; every index a rule forms is in range (R53, R99). -/
def roundConstant (tb : Tables) (i : Nat) : Byte := tb.rcon.toList.getD i 0

/-- `ksRows = (keySize + 6 + 1) * 4` (R114). -/
def scheduleRows (nk : Nat) : Nat := (nk + 6 + 1) * 4

/-- Row `r >= Nk` of the forward schedule from the rows before it (R115). -/
def scheduleRow (tb : Tables) (nk r : Nat) (ks : List Word) : Word :=
  let t := ks.getD (r - 1) 0
  let t' :=
    if r % nk = 0 then subWord tb.sbox (rotWord t) ^^^ (zext32 (roundConstant tb (r / nk)) <<< 24)
    else if nk > 6 ∧ r % nk = 4 then subWord tb.sbox t
    else t
  ks.getD (r - nk) 0 ^^^ t'

/-- `n` more rows after the rows `ks` (the loop of R115). -/
def scheduleLoop (tb : Tables) (nk : Nat) : Nat → List Word → List Word
  | 0, ks => ks
  | n + 1, ks => scheduleLoop tb nk n (ks ++ [scheduleRow tb nk ks.length ks])

/-- The forward key schedule of a key (R115). -/
def schedule (tb : Tables) (key : List Word) : List Word :=
  scheduleLoop tb key.length (scheduleRows key.length - key.length) key

/-- Row `j` of the inverse schedule (the loop body of R117). -/
def invScheduleRow (tb : Tables) (ks : List Word) (rows j : Nat) : Word :=
  let r := rows - j
  let t := if j % 4 ≠ 0 then ks.getD r 0 else ks.getD (r - 4) 0
  if j < 4 ∨ r ≤ 4 then t else imc tb t

/-- The inverse key schedule of a forward schedule (R117). -/
def invSchedule (tb : Tables) (ks : List Word) : List Word :=
  (List.range ks.length).map (invScheduleRow tb ks ks.length)

/-- The same-key test: as many words, and every word equal (R113). -/
def sameKey (k : KeyState) (key : List Word) : Bool := key.length == k.keySize && key == k.words

/-- The key state a full expansion of `key` commits, all five items together (R114, R120); cells above the new arrays
keep what they held. -/
def expandedKey (tb : Tables) (k : KeyState) (key : List Word) : KeyState :=
  let ks := schedule tb key
  { keyCells   := overwrite k.keyCells key
    keySize    := key.length
    ksCells    := overwrite k.ksCells ks
    invksCells := overwrite k.invksCells (invSchedule tb ks)
    ksRows     := scheduleRows key.length }

/-- The full expansion (R114): the key state, KEY_LOADED and the ghost counter. -/
def expandKey (key : List Word) (s : State) : State :=
  setKeyLoaded { s with key := expandedKey s.tables s.key key, expansions := s.expansions + 1 }

/-- EXPANDKEY (R110). The order of the tests is that of R177; on a destroyed instance the command is undefined (R196). -/
def execExpandkey (s : State) : Result :=
  if s.destroyed then .refused .destroyedInstance
  else if !keyLengthValid s.keylen then raiseError errInvalidKeySize s
  else if sameKey s.key (keyOperand s) then complete s
  else complete (expandKey (keyOperand s) s)

end Sys2Proof.Machine
end

