-- ==== Sys2Proof/Machine/Lifecycle.lean ====
section
/-! DEFINITION. LCU, the lifecycle unit: DESTROY (spec file 44), and the reset input (R190 to R192). -/

namespace Sys2Proof.Machine

/-- A table of zeros, the sentinel of R161. -/
def zeroTable : Table := Vector.replicate 16 (Vector.replicate 16 0)

/-- Four tables of zeros. -/
def zeroMix : MixTables := ⟨zeroTable, zeroTable, zeroTable, zeroTable⟩

/-- The tables after DESTROY: the ten tables zero, RCON as it was (R160, R161). -/
def clearTables (tb : Tables) : Tables :=
  { sbox := zeroTable, invSbox := zeroTable, subMix := zeroMix, invSubMix := zeroMix, rcon := tb.rcon }

/-- The key state after DESTROY: every storage cell overwritten with 0, then the arrays empty (R160, R162). -/
def clearKey : KeyState where
  keyCells   := Vector.replicate _ 0
  keySize    := 0
  ksCells    := Vector.replicate _ 0
  invksCells := Vector.replicate _ 0
  ksRows     := 0

/-- The working words after DESTROY; OFF, RND and KSP are not written (R38, R160). -/
def clearWork (wk : Working) : Working :=
  { wk with v := Quad.zero, w := Quad.zero, s := Quad.zero, t := Quad.zero }

/-- DESTROY (R160). It is defined in every state, a second one included (R164). The host-written registers and IN are
the host's and stay (R163). -/
def execDestroy (s : State) : Result :=
  complete (setDestroyed
    { s with tables := clearTables s.tables, key := clearKey, work := clearWork s.work, outMem := [], outLen := 0 })

/-- The reset input, in any state (R190, R192). What the host is still going to do and the count of free values are the
model's own and stay. -/
def resetCore (s : State) : State := { State.reset with host := s.host, draws := s.draws }

end Sys2Proof.Machine
end

