-- ==== Sys2Proof/Machine/Dispatch.lean ====
section
/-! DEFINITION. The meaning of each command, one arm per constructor of `Instr`. -/

namespace Sys2Proof.Machine

def exec (i : Instr) (s : State) : Host.Outcome State Fault Refusal :=
  match i with
  | .expandkey => Sys2Proof.Machine.execExpandkey s
  | .decrypt strip => Sys2Proof.Machine.execDecrypt strip s
  | .destroy => Sys2Proof.Machine.execDestroy s

end Sys2Proof.Machine
end

