-- ==== Sys2Proof/Machine/Command.lean ====
section
/-! DEFINITION. Performing the command byte that was written to CMD (spec R71, R75, R177). -/

namespace Sys2Proof.Machine

/-- The byte is decoded first; one that is no command ends in IllegalCommand before any operand is looked at (R173,
R177), any other runs. -/
def runCommand (b : Byte) (s : State) : Result :=
  match decodeCmd b with
  | .ok i => exec i s
  | .error _ => illegalCommand s

end Sys2Proof.Machine
end

