-- ==== Sys2Proof/Machine/HostPort.lean ====
section
/-! DEFINITION. The host's side of the interface: register and byte accesses (spec R33, R50, R54) and how a line of the
call syntax becomes accesses (R77). -/

namespace Sys2Proof.Machine

/-- Bytes 4j..4j+3 of a byte operand set from a word, big-endian (R33, R55). -/
def setWordBytes {n : Nat} (bytes : Vector Byte n) (j : Nat) (w : Word) : Vector Byte n :=
  (((bytes.setIfInBounds (4 * j) (byteAt w 3)).setIfInBounds (4 * j + 1) (byteAt w 2)).setIfInBounds
    (4 * j + 2) (byteAt w 1)).setIfInBounds (4 * j + 3) (byteAt w 0)

/-- A host write of interface register `n` (R33): a write of CMD leaves the byte waiting there; a register that is not
host-writable has no such access (U13). -/
def writeRegister (n v : Nat) (s : State) : Result :=
  if n = 0 then .next { s with cmd := some (BitVec.ofNat 8 v) }
  else if n = 2 then .next { s with keylen := v }
  else if n = 3 then .next { s with offset := v }
  else if n = 4 then .next { s with inLen := v }
  else if 8 ≤ n ∧ n ≤ 15 then .next { s with keyin := setWordBytes s.keyin (n - 8) (BitVec.ofNat 32 v) }
  else if 16 ≤ n ∧ n ≤ 19 then .next { s with ivin := setWordBytes s.ivin (n - 16) (BitVec.ofNat 32 v) }
  else .refused (.registerAccess n)

/-- What a host read of interface register `n` gives: STATUS and OUT_LEN; no other register is host-readable (R33, U13). -/
def readRegister (n : Nat) (s : State) : Option Nat :=
  if n = 1 then some s.status.toNat
  else if n = 5 then some s.outLen
  else none

/-- What a host read of OUT at address `a` gives; OUT has OUT_LEN bytes (R50, R151). -/
def readOut (a : Nat) (s : State) : Option Byte :=
  if a < s.outLen then some (s.outMem.read a) else none

/-- One host access. A read changes nothing: its value goes to the host, which is no state of the machine (R37, R58,
R174). -/
def hostAccess (x : HostAction) (s : State) : Result :=
  match x with
  | .reset => .next (resetCore s)
  | .writeReg n v => writeRegister n v s
  | .readReg n => if (readRegister n s).isSome then .next s else .refused (.registerAccess n)
  | .writeKeyin a b =>
    if a < 32 then .next { s with keyin := s.keyin.setIfInBounds a b } else .fault (.noSuchAddress .keyin a)
  | .writeIvin a b =>
    if a < 16 then .next { s with ivin := s.ivin.setIfInBounds a b } else .fault (.noSuchAddress .ivin a)
  | .writeIn a b => .next { s with inMem := s.inMem.write a b }
  | .readOut a => if (readOut a s).isSome then .next s else .fault (.noSuchAddress .out a)

/-- The next access of the host, or nothing: the CORE idle between commands keeps its state (R186). -/
def hostTurn (s : State) : Result :=
  match s.host with
  | [] => .next s
  | x :: xs => hostAccess x { s with host := xs }

/-- Byte writes `mk a b`, `mk (a + 1) b'`, ... of a byte string. -/
def byteWrites (mk : Nat → Byte → HostAction) : Nat → List Byte → List HostAction
  | _, [] => []
  | a, b :: bs => mk a b :: byteWrites mk (a + 1) bs

/-- The write of CMD that starts a command (R71). -/
def issue (i : Instr) : HostAction := .writeReg 0 (encodeCmd i).toNat

/-- What a line assembles to: the writes of its operands, then the write of CMD (R77). KEYIN holds 32 bytes, so the bytes
of a longer key operand beyond them have nowhere to go (R34). -/
def assemble : Line → List HostAction
  | .expandkey key =>
    .writeReg 2 key.length :: byteWrites .writeKeyin 0 (key.take 32) ++ [issue .expandkey]
  | .decrypt buffer offset iv strip =>
    byteWrites .writeIn 0 buffer ++ .writeReg 4 buffer.length :: .writeReg 3 offset ::
      byteWrites .writeIvin 0 iv.toList ++ [issue (.decrypt strip)]
  | .destroy => [issue .destroy]
  | .reset => [.reset]

end Sys2Proof.Machine
end

