-- ==== Sys2Proof/Machine/Step.lean ====
section
/-! DEFINITION. One step: the command waiting in CMD, one atomic transaction (spec R14); where none waits, the next
access of the host (R60). -/

namespace Sys2Proof.Machine

/-- One step of the machine. -/
def step (s : State) : Host.Outcome State Fault Refusal :=
  match s.takeCmd with
  | some (b, s') => runCommand b s'
  | none => hostTurn s

/-- `s` with the command byte of a table word waiting in CMD, where `step` fetches its next command. -/
def State.withFetchWord (s : State) (nbits w : Nat) : State := { s with cmd := some (tableByte nbits w) }

end Sys2Proof.Machine
end

