-- ==== Sys2Proof/Machine/Standard.lean ====
section
/-! DEFINITION. The inverse cipher of the AES standard as R142 writes it, byte by byte, with none of the datapath's tables
of words: the reference that R2 and R141 hold DECRYPT to. The machine never runs it. -/

namespace Sys2Proof.Machine

/-- A cipher state: its sixteen bytes by columns (R142). -/
abbrev Matrix := List Byte

/-- st[r][c] (R142). -/
def entry (st : Matrix) (r c : Nat) : Byte := st.getD (r + 4 * c) 0

/-- The state with st[r][c] = f r c. -/
def matrix (f : Nat → Nat → Byte) : Matrix := (List.range 16).map fun k => f (k % 4) (k / 4)

/-- Round key q: column c is KS[4q + c], most significant byte in row 0 (R142). -/
def roundKey (ks : List Word) (q : Nat) : Matrix := matrix fun r c => byteAt (ks.getD (4 * q + c) 0) (3 - r)

/-- XOR with a round key. -/
def addRoundKey (k st : Matrix) : Matrix := matrix fun r c => entry st r c ^^^ entry k r c

/-- InvShiftRows: new st[r][c] = old st[r][(c - r) mod 4] (R142). -/
def invShiftRows (st : Matrix) : Matrix := matrix fun r c => entry st r ((c + 4 - r) % 4)

/-- InvSubBytes: every byte through INVSBOX (R142). -/
def invSubBytes (st : Matrix) : Matrix := matrix fun r c => invSboxByte (entry st r c)

/-- InvMixColumns: in every column row r becomes 14 a(r) ^ 11 a(r+1) ^ 13 a(r+2) ^ 9 a(r+3), rows mod 4 (R118, R142). -/
def invMixColumns (st : Matrix) : Matrix := matrix fun r c =>
  gmul 14 (entry st r c) ^^^ gmul 11 (entry st ((r + 1) % 4) c) ^^^ gmul 13 (entry st ((r + 2) % 4) c) ^^^
    gmul 9 (entry st ((r + 3) % 4) c)

/-- The rounds q, q-1, .., 1 (R142). -/
def invRounds (ks : List Word) : Nat → Matrix → Matrix
  | 0, st => st
  | q + 1, st => invRounds ks q (invMixColumns (addRoundKey (roundKey ks (q + 1)) (invSubBytes (invShiftRows st))))

/-- InvCipher of a block of sixteen bytes under the key schedule `ks` with `nr` rounds (R142). -/
def invCipher (ks : List Word) (nr : Nat) (block : List Byte) : List Byte :=
  addRoundKey (roundKey ks 0)
    (invSubBytes (invShiftRows (invRounds ks (nr - 1) (addRoundKey (roundKey ks nr) block))))

end Sys2Proof.Machine
end

