-- ==== Sys2Proof/Safety.lean ====
section
/-! DEFINITION. What counts as a safe run, and the invariant the machine keeps, in the terms the claims use. -/

namespace Sys2Proof.Machine

/-- The commands that go on in a state: everything but EXPANDKEY and DECRYPT on a destroyed instance (R196) and DECRYPT
out of its buffer contract (R147). That DECRYPT with no key and a block to process goes on is the model's choice among the
two treatments of R144 and U3 (log entry 5). -/
def commandDefined (i : Instr) (s : State) : Bool :=
  match i with
  | .expandkey => !s.destroyed
  | .decrypt _ => !s.destroyed && bufferContract s
  | .destroy   => true

/-- A state from which the machine goes on. -/
def State.runs (s : State) : Prop := ∃ t, step s = .next t

/-- The key state is empty, or one of the three sizes with both schedules derived from KEY (R27). -/
def KeyState.derived (tb : Tables) (k : KeyState) : Prop :=
  (k.keySize = 0 ∧ k.ksRows = 0) ∨
  ((k.keySize = 4 ∨ k.keySize = 6 ∨ k.keySize = 8) ∧ k.ksRows = scheduleRows k.keySize ∧
    k.ks = schedule tb k.words ∧ k.invks = invSchedule tb k.ks)

/-- What every state of a run from reset satisfies, and every step keeps. -/
structure State.Inv (s : State) : Prop where
  /-- The flags are those of one of the three lifecycle states (R195). -/
  lifecycle : s.lifecycle.isSome = true
  /-- KEY_LOADED = 1 exactly when KEYSIZE is not 0 (R27 b). -/
  keyLoaded : s.keyLoaded = true ↔ s.key.keySize ≠ 0
  /-- The schedules are derivable from KEY (R27 a). -/
  derived : s.key.derived s.tables
  /-- The tables are those of INIT until DESTROY (R24). -/
  tables : s.destroyed = false → s.tables = initTables
  /-- After DESTROY no storage cell holds anything (R160, R162). -/
  cleared : s.destroyed = true → s.tables = clearTables initTables ∧ s.key = clearKey ∧
    s.work = clearWork s.work ∧ s.outMem = [] ∧ s.outLen = 0
  /-- ERR is 0, 1 or 2 (R32). -/
  err : s.err = 0 ∨ s.err = errInvalidKeySize ∨ s.err = errIllegalCommand
  /-- IN is in canonical form. -/
  inForm : s.inMem.wf
  /-- OUT is in canonical form. -/
  outForm : s.outMem.wf
  /-- OUT has no byte at or above OUT_LEN (R50, U12). -/
  outBound : ∀ c ∈ s.outMem, c.1 < s.outLen

/-- A key operand of 16, 24 or 32 bytes (R111). -/
def State.validKey (s : State) : Prop := s.keylen = 16 ∨ s.keylen = 24 ∨ s.keylen = 32

/-- The key operand is the loaded key: as many words, and every word equal (R113). -/
def State.holdsKey (s : State) : Prop :=
  s.keylen / 4 = s.key.keySize ∧ ∀ i < s.key.keySize, be32 s.keyin.toList i = s.key.keyCells.toList.getD i 0

/-- The contract of DECRYPT on its buffer operands (R56). -/
def State.inContract (s : State) : Prop := s.offset ≤ s.inLen ∧ (s.inLen - s.offset) % 16 = 0

/-- Ciphertext block `i`, the sixteen bytes C_i of R141. -/
def State.ciphertext (s : State) (i : Nat) : List Byte := s.inMem.readBytes (s.offset + 16 * i) 16

/-- C_(i-1) of R141: the ciphertext block before block `i`, and the IV before the first. -/
def State.chained (s : State) : Nat → List Byte
  | 0 => s.ivin.toList
  | i + 1 => s.ciphertext i

/-- OUT[a] as the host reads it; none at and above OUT_LEN (R50). -/
def State.out (s : State) (a : Nat) : Option Byte := readOut a s

/-- OUT from OFFSET on is the CBC decryption of the blocks of `s` under the round keys `ks` of a key of `nk` words, by the
AES standard's inverse cipher (R141, R142). -/
def isStandardCbc (s t : State) (nk : Nat) (ks : List Word) : Prop :=
  ∀ i j, i < (s.inLen - s.offset) / 16 → j < 16 → s.offset + 16 * i + j < t.outLen →
    t.out (s.offset + 16 * i + j) = some ((invCipher ks (nk + 6) (s.ciphertext i)).getD j 0 ^^^ (s.chained i).getD j 0)

/-- SubWord by the values of SBOX (R116). -/
def subWordValue (t : Word) : Word :=
  wordOf (sboxByte (byteAt t 3)) (sboxByte (byteAt t 2)) (sboxByte (byteAt t 1)) (sboxByte (byteAt t 0))

/-- What is XORed with the word Nk rows back to give row `r` (R115). -/
def scheduleTerm (nk r : Nat) (previous : Word) : Word :=
  if r % nk = 0 then
    subWordValue (previous.rotateLeft 8) ^^^ wordOf (rconBytes.toList.getD (r / nk) 0) 0 0 0
  else if nk > 6 ∧ r % nk = 4 then subWordValue previous
  else previous

/-- The host has set the operands of a DECRYPT (R73). -/
def State.withDecryptOperands (s : State) (inMem : Memory) (inLen offset : Nat) (ivin : Vector Byte 16) : State :=
  { s with inMem := inMem, inLen := inLen, offset := offset, ivin := ivin }

end Sys2Proof.Machine
end

