-- ==== Sys2Proof/Certificates/Slice0/Obligations.lean ====
section
/-! DEFINITION. The statements for the provers: what the numbered rules of the spec say the CORE does. -/

section

open Sys2Proof Sys2Proof.Machine

/-- The bytes 00000 0 01, 00000 0 10, 00000 1 10 and 00000 0 11 (RSV, STRIP, OP) decode to EXPANDKEY, DECRYPT, DECRYPT.S
and DESTROY, and the table's words give the same. (30_encoding.md R71, R72; opcode_table.json) -/
def Obligations.CommandBytesDecodeAsTheTableSays : Prop :=
  decodeCmd (0b00000#5 ++ 0b0#1 ++ 0b01#2) = .ok .expandkey ∧
  decodeCmd (0b00000#5 ++ 0b0#1 ++ 0b10#2) = .ok (.decrypt false) ∧
  decodeCmd (0b00000#5 ++ 0b1#1 ++ 0b10#2) = .ok (.decrypt true) ∧
  decodeCmd (0b00000#5 ++ 0b0#1 ++ 0b11#2) = .ok .destroy ∧
  decodeTableWord 8 0x01 = some .expandkey ∧ decodeTableWord 8 0x02 = some (.decrypt false) ∧
  decodeTableWord 8 0x06 = some (.decrypt true) ∧ decodeTableWord 8 0x03 = some .destroy

/-- Decoding the encoded bytes of any instruction, whatever follows them, gives the instruction and what follows; and a
byte decodes to an instruction only if it is that instruction's encoding. (30_encoding.md R71, R72, R75, R76) -/
def Obligations.DecodeAndEncodeAgree : Prop :=
  (∀ (i : Instr) (rest : List Byte), i.wellFormed = true ∧ decode (encode i ++ rest) = .ok (i, rest)) ∧
  (∀ (b : Byte) (i : Instr), decodeCmd b = .ok i ↔ b = encodeCmd i)

/-- Where the byte waiting in CMD decodes to an instruction, step is exec of that instruction at the state with CMD taken;
so it is for a table word placed by withFetchWord. (30_encoding.md R71, R76; 00_scope.md R14) -/
def Obligations.StepPerformsTheDecodedCommand : Prop :=
  (∀ (s : State) (b : Byte) (i : Instr), s.cmd = some b → decodeCmd b = .ok i →
    step s = exec i { s with cmd := none }) ∧
  (∀ (s : State) (w : Nat) (i : Instr), decodeTableWord 8 w = some i →
    step (s.withFetchWord 8 w) = exec i { s with cmd := none })

/-- In every state, a host write of CMD of a value below 256 other than 1, 2, 3 and 6 leads, when the CORE performs it, to
the state in which ERR = 2 and nothing but the host's own list has changed. (R75; R173) -/
def Obligations.IllegalCommandSetsErrAndNothingElse : Prop :=
  ∀ (s : State) (v : Nat) (xs : List HostAction), s.cmd = none → s.host = .writeReg 0 v :: xs → v < 256 →
    v ≠ 1 → v ≠ 2 → v ≠ 3 → v ≠ 6 →
    ∃ m, step s = .next m ∧ step m = .next { s with host := xs, err := 2 }

/-- Where no command waits in CMD, a step takes the first access of the host's list, and where the list is empty the CORE
is idle and keeps its whole state. The list itself is the model's (log entry 1). (20_memory.md R60; 60_exceptions.md
R186) -/
def Obligations.HostAccessesAndIdleness : Prop :=
  (∀ (s : State) (x : HostAction) (xs : List HostAction), s.cmd = none → s.host = x :: xs →
    step s = hostAccess x { s with host := xs }) ∧
  (∀ s : State, s.cmd = none → s.host = [] → step s = .next s)

/-- Writing an 8-bit value to register 0 leaves it waiting in CMD (that it waits there for the next step is log entry 11);
writing registers 2, 3 and 4 sets KEYLEN, OFFSET and IN_LEN; writing a byte of IN makes that address read as the byte
and leaves every other address as it was; writing a byte of KEYIN below 32 or of IVIN below 16 sets that byte; nothing
else changes. That a byte of IN can be written at any address, at or above IN_LEN too, is the model's reading of R77
beside R50 (log entry 12). (10_state.md R33; 20_memory.md R50, R51; 30_encoding.md R71) -/
def Obligations.HostWritesReachTheirRegisters : Prop :=
  ∀ (s : State) (v a : Nat) (b : Byte),
    (v < 256 → hostAccess (.writeReg 0 v) s = .next { s with cmd := some (BitVec.ofNat 8 v) }) ∧
    hostAccess (.writeReg 2 v) s = .next { s with keylen := v } ∧
    hostAccess (.writeReg 3 v) s = .next { s with offset := v } ∧
    hostAccess (.writeReg 4 v) s = .next { s with inLen := v } ∧
    (s.inMem.wf → ∃ m : Memory, hostAccess (.writeIn a b) s = .next { s with inMem := m } ∧ m.wf ∧
      ∀ x, m.read x = if x = a then b else s.inMem.read x) ∧
    (∀ h : a < 32, hostAccess (.writeKeyin a b) s = .next { s with keyin := s.keyin.set a b h }) ∧
    (∀ h : a < 16, hostAccess (.writeIvin a b) s = .next { s with ivin := s.ivin.set a b h })

/-- A host write of a 32-bit word to register 8+j (j < 8) makes KEYIN[4j+i] byte 3-i of the word for i < 4 and leaves the
other bytes of KEYIN and everything else as it was; register 16+j (j < 4) does the same to IVIN. The order of the
bytes in the word is this model's reading of R55 (log entry 9). (10_state.md R33; 20_memory.md R55) -/
def Obligations.OperandRegisterWordsAreBigEndian : Prop :=
  ∀ (s : State) (v : Nat), v < 2 ^ 32 →
    (∀ j < 8, ∃ k, hostAccess (.writeReg (8 + j) v) s = .next { s with keyin := k } ∧
      ∀ a < 32, k.toList.getD a 0 =
        if a / 4 = j then byteAt (BitVec.ofNat 32 v) (3 - a % 4) else s.keyin.toList.getD a 0) ∧
    (∀ j < 4, ∃ k, hostAccess (.writeReg (16 + j) v) s = .next { s with ivin := k } ∧
      ∀ a < 16, k.toList.getD a 0 =
        if a / 4 = j then byteAt (BitVec.ofNat 32 v) (3 - a % 4) else s.ivin.toList.getD a 0)

/-- A host read of register 1 gives STATUS, of register 5 OUT_LEN, of OUT below OUT_LEN the byte; each leaves the whole
state as it was. (20_memory.md R58; 60_exceptions.md R174; 10_state.md R33) -/
def Obligations.ReadsHaveNoSideEffect : Prop :=
  ∀ (s : State) (a : Nat),
    (hostAccess (.readReg 1) s = .next s ∧ readRegister 1 s = some s.status.toNat) ∧
    (hostAccess (.readReg 5) s = .next s ∧ readRegister 5 s = some s.outLen) ∧
    (a < s.outLen → hostAccess (.readOut a) s = .next s ∧ s.out a = some (s.outMem.read a))

/-- A write of a register number other than 0, 2, 3, 4, 8..19 and a read of one other than 1 and 5 are refused; KEYIN at
or above 32, IVIN at or above 16 and OUT at or above OUT_LEN fault. Refusing the first is the spec's U13; the fault of
the second is the model's (log entry 8). (10_state.md R33, R50; 93_implementation_defined.md U13) -/
def Obligations.AccessesTheInterfaceLacksStop : Prop :=
  ∀ (s : State) (n v a : Nat) (b : Byte),
    (hostWritable n = false → hostAccess (.writeReg n v) s = .refused (.registerAccess n)) ∧
    (hostReadable n = false → hostAccess (.readReg n) s = .refused (.registerAccess n)) ∧
    (32 ≤ a → hostAccess (.writeKeyin a b) s = .fault (.noSuchAddress .keyin a)) ∧
    (16 ≤ a → hostAccess (.writeIvin a b) s = .fault (.noSuchAddress .ivin a)) ∧
    (s.outLen ≤ a → hostAccess (.readOut a) s = .fault (.noSuchAddress .out a))

/-- Bits 0, 1 and 2 of STATUS are the three flags, bit 3 reads 0 and bits 7:4 are ERR. (10_state.md R31, R32, R33) -/
def Obligations.StatusBitsAreFlagsAndErr : Prop :=
  ∀ s : State,
    s.status.getLsbD 0 = s.tablesReady ∧ s.status.getLsbD 1 = s.keyLoaded ∧ s.status.getLsbD 2 = s.destroyed ∧
    s.status.getLsbD 3 = false ∧ s.status.extractLsb' 4 4 = s.err

/-- From any state in which no command waits, the accesses that the line assembles to lead, in as many steps as there are
accesses and one more, to EXPANDKEY at the state in which KEYLEN is the length of the key, KEYIN its first 32 bytes
over what was there, and nothing else is changed. The host's list and the step count are the model's (log entries 1
and 11), and so is what a key of more than 32 bytes leaves in KEYIN and KEYLEN (log entry 14). (30_encoding.md R73,
R77; 10_state.md R34, R37) -/
def Obligations.ExpandkeyLineRunsWithItsOperands : Prop :=
  ∀ (s : State) (key : List Byte) (rest : List HostAction), s.cmd = none →
    s.host = assemble (.expandkey key) ++ rest →
    ∃ k : Vector Byte 32,
      Host.Core.run Sys2Proof.core ((assemble (.expandkey key)).length + 1) s =
        exec .expandkey { s with keylen := key.length, keyin := k, host := rest } ∧
      ∀ a < 32, k.toList.getD a 0 = if a < key.length then key.getD a 0 else s.keyin.toList.getD a 0

/-- From any state in which no command waits and IN is in canonical form, the accesses that the line DECRYPT or DECRYPT.S
assembles to lead, in as many steps as there are accesses and one more, to the command at the state in which IN reads
as the buffer below its length and as before from there on, IN_LEN is its length, OFFSET and IVIN are as named, and
nothing else is changed. The host's list and the step count are the model's (log entries 1 and 11), and so is that the
line may fill IN before it writes IN_LEN (log entry 12). (30_encoding.md R73, R77; 10_state.md R37; 20_memory.md R50) -/
def Obligations.DecryptLineRunsWithItsOperands : Prop :=
  ∀ (s : State) (buffer : List Byte) (offset : Nat) (iv : Vector Byte 16) (strip : Bool) (rest : List HostAction),
    s.cmd = none → s.inMem.wf → s.host = assemble (.decrypt buffer offset iv strip) ++ rest →
    ∃ m : Memory,
      Host.Core.run Sys2Proof.core ((assemble (.decrypt buffer offset iv strip)).length + 1) s =
        exec (.decrypt strip) { s with
          inMem := m, inLen := buffer.length, offset := offset, ivin := iv, host := rest } ∧
      m.wf ∧ ∀ a, m.read a = if a < buffer.length then buffer.getD a 0 else s.inMem.read a

/-- From any state in which no command waits: a host write of a command's byte to CMD is followed by that command at the
state with nothing else changed; the line DESTROY leads so to DESTROY, and the line RESET to the reset input. The
host's list and the step count are the model's (log entries 1 and 11). (30_encoding.md R71, R72, R77) -/
def Obligations.DestroyAndResetLinesRun : Prop :=
  ∀ (s : State) (rest : List HostAction), s.cmd = none →
    (∀ i : Instr, s.host = .writeReg 0 (encodeCmd i).toNat :: rest →
      Host.Core.run Sys2Proof.core 2 s = exec i { s with host := rest }) ∧
    (s.host = assemble .destroy ++ rest →
      Host.Core.run Sys2Proof.core ((assemble .destroy).length + 1) s = exec .destroy { s with host := rest }) ∧
    (s.host = assemble .reset ++ rest →
      Host.Core.run Sys2Proof.core (assemble .reset).length s = hostAccess .reset { s with host := rest })

/-- State.reset has the tables of INIT, empty KEY, KS and INVKS, KEYSIZE = KSROWS = 0, OUT empty, the flags 1, 0, 0, ERR =
0, STATUS = 0x01 and EXPANSIONS = 0. The values the spec leaves unspecified are not stated. (10_state.md R39;
70_reset_and_hazards.md R190) -/
def Obligations.ResetLeavesTheValuesOfTheRules : Prop :=
  State.reset.tables = initTables ∧ State.reset.key.words = [] ∧ State.reset.key.ks = [] ∧
  State.reset.key.invks = [] ∧ State.reset.key.keySize = 0 ∧ State.reset.key.ksRows = 0 ∧
  State.reset.outLen = 0 ∧ (∀ a, State.reset.out a = none) ∧ State.reset.tablesReady = true ∧
  State.reset.keyLoaded = false ∧ State.reset.destroyed = false ∧ State.reset.err = 0 ∧
  State.reset.status = 0x01 ∧ State.reset.expansions = 0

/-- Whatever the state, DESTROYED included, the reset input gives State.reset; only what the host is still going to do and
the model's own count of free values (log entries 1 and 4) are kept. What R191 leaves unspecified (KEYLEN, KEYIN,
OFFSET, IN_LEN, IVIN, the working registers, IN) and CMD come back to the values the model names at reset (log entries
2, 3 and 11). (70_reset_and_hazards.md R190, R192) -/
def Obligations.ResetInputReturnsToTheResetState : Prop :=
  ∀ (s : State) (xs : List HostAction), s.cmd = none → s.host = .reset :: xs →
    step s = .next { State.reset with host := xs, draws := s.draws }

/-- For every byte x: SBOX[x] is the affine transform of the field inverse of x, INVSBOX undoes SBOX both ways,
SUBMIX[k][x] and INVSUBMIX[k][x] are the columns (2,1,1,3) and (14,9,13,11) rotated by k bytes, and RCON is 00 01 02
04 08 10 20 40 80 1b 36. (40_gf_tables.md R90, R95 to R99) -/
def Obligations.InitBuildsTheAesTables : Prop :=
  (∀ x : Byte,
    lookup initTables.sbox x = zext32 (affine (ginv x)) ∧
    lookup initTables.invSbox (sboxByte x) = zext32 x ∧ lookup initTables.sbox (invSboxByte x) = zext32 x ∧
    (let s := sboxByte x
     lookup initTables.subMix.k0 x = wordOf (gmul 2 s) s s (gmul 3 s) ∧
     lookup initTables.subMix.k1 x = wordOf (gmul 3 s) (gmul 2 s) s s ∧
     lookup initTables.subMix.k2 x = wordOf s (gmul 3 s) (gmul 2 s) s ∧
     lookup initTables.subMix.k3 x = wordOf s s (gmul 3 s) (gmul 2 s)) ∧
    (let y := invSboxByte x
     lookup initTables.invSubMix.k0 x = wordOf (gmul 14 y) (gmul 9 y) (gmul 13 y) (gmul 11 y) ∧
     lookup initTables.invSubMix.k1 x = wordOf (gmul 11 y) (gmul 14 y) (gmul 9 y) (gmul 13 y) ∧
     lookup initTables.invSubMix.k2 x = wordOf (gmul 13 y) (gmul 11 y) (gmul 14 y) (gmul 9 y) ∧
     lookup initTables.invSubMix.k3 x = wordOf (gmul 9 y) (gmul 13 y) (gmul 11 y) (gmul 14 y))) ∧
  initTables.rcon.toList = [0x00, 0x01, 0x02, 0x04, 0x08, 0x10, 0x20, 0x40, 0x80, 0x1b, 0x36]

/-- For all bytes: gmul(a,b) = gmul(b,a), gmul(a, gmul(b,c)) = gmul(gmul(a,b), c), gmul(a, b^c) = gmul(a,b) ^ gmul(a,c),
gmul(1,v) = v, gmul(0,v) = 0, and gmul by 2, 3, 4, 8, 9, 11, 13, 14 is the XOR of doublings the rule prints.
(40_gf_tables.md R91, R92) -/
def Obligations.FieldMultiplicationLawsAndDoublings : Prop :=
  ∀ a b c : Byte,
    gmul a b = gmul b a ∧ gmul a (gmul b c) = gmul (gmul a b) c ∧ gmul a (b ^^^ c) = gmul a b ^^^ gmul a c ∧
    gmul 1 a = a ∧ gmul 0 a = 0 ∧ gmul 2 a = double a ∧ gmul 3 a = double a ^^^ a ∧
    gmul 4 a = double (double a) ∧ gmul 8 a = double (double (double a)) ∧
    gmul 9 a = gmul 8 a ^^^ a ∧ gmul 11 a = gmul 8 a ^^^ gmul 2 a ^^^ a ∧
    gmul 13 a = gmul 8 a ^^^ gmul 4 a ^^^ a ∧ gmul 14 a = gmul 8 a ^^^ gmul 4 a ^^^ gmul 2 a

/-- ginv 0 is 0; for every nonzero byte a, gmul(a, b) = 1 exactly when b = ginv(a); ginv(a) is a multiplied by itself to
the power 254; and ginv(1), ginv(2), ginv(0x53) are 1, 0x8d, 0xca. (R93) -/
def Obligations.FieldInverseIsTheOneInverse : Prop :=
  ginv 0 = 0 ∧ (∀ a b : Byte, a ≠ 0 → (gmul a b = 1 ↔ b = ginv a)) ∧
  (∀ a : Byte, ginv a = (gmul a)^[253] a) ∧
  ginv 0x01 = 0x01 ∧ ginv 0x02 = 0x8d ∧ ginv 0x53 = 0xca

/-- Unless the instance is destroyed, EXPANDKEY with KEYLEN not 16, 24 or 32 gives the state in which ERR = 1 and
everything else is as it was, whatever KEYIN holds, the loaded key included. (R111) -/
def Obligations.InvalidKeyLengthFailsAndKeepsEverything : Prop :=
  ∀ s : State, s.destroyed = false → ¬ s.validKey → exec .expandkey s = .next { s with err := 1 }

/-- Unless the instance is destroyed, EXPANDKEY of a valid key that has as many words as the loaded key and the same words
gives the state in which ERR = 0 and everything else is as it was, the schedules and EXPANSIONS included.
(41_key_schedule.md R113, R123) -/
def Obligations.SameKeyIsShortCircuited : Prop :=
  ∀ s : State, s.destroyed = false → s.validKey → s.holdsKey → exec .expandkey s = .next { s with err := 0 }

/-- In every state of the invariant that is not destroyed and holds the key of its key operand, expanding the operand anew
would give the same KEY, KEYSIZE, KSROWS, KS and INVKS. (41_key_schedule.md R113; 10_state.md R27) -/
def Obligations.ShortCircuitLeavesWhatRecomputationWould : Prop :=
  ∀ s : State, s.Inv → s.destroyed = false → s.validKey → s.holdsKey →
    (expandedKey s.tables s.key (keyOperand s)).words = s.key.words ∧
    (expandedKey s.tables s.key (keyOperand s)).keySize = s.key.keySize ∧
    (expandedKey s.tables s.key (keyOperand s)).ksRows = s.key.ksRows ∧
    (expandedKey s.tables s.key (keyOperand s)).ks = s.key.ks ∧
    (expandedKey s.tables s.key (keyOperand s)).invks = s.key.invks

/-- Unless the instance is destroyed, EXPANDKEY of a valid key that is not the loaded one gives the state in which KEYSIZE
is the number of its words, KSROWS is (KEYSIZE+7)*4, KEY is its words read big-endian, KS and INVKS have KSROWS rows,
KEY_LOADED = 1, EXPANSIONS has grown by one and ERR = 0; nothing but the key state and these has changed.
(41_key_schedule.md R110, R112, R114) -/
def Obligations.NewKeyIsExpanded : Prop :=
  ∀ s : State, s.destroyed = false → s.validKey → ¬ s.holdsKey →
    ∃ k : KeyState,
      exec .expandkey s =
        .next { s with key := k, keyLoaded := true, expansions := s.expansions + 1, err := 0 } ∧
      k.keySize = s.keylen / 4 ∧ k.ksRows = (k.keySize + 7) * 4 ∧ k.words.length = k.keySize ∧
      (∀ i < k.keySize, k.words.getD i 0 = wordOf
        (s.keyin.toList.getD (4 * i) 0) (s.keyin.toList.getD (4 * i + 1) 0)
        (s.keyin.toList.getD (4 * i + 2) 0) (s.keyin.toList.getD (4 * i + 3) 0)) ∧
      k.ks.length = k.ksRows ∧ k.invks.length = k.ksRows

/-- In every state of the invariant, where EXPANDKEY goes on with ERR = 0 (expanded or short-circuited), the first Nk rows
of KS are the key words and every later row r is row r-Nk XOR the previous row, the latter rotated, substituted and
XORed with the round constant in its top byte where r mod Nk = 0, and substituted where Nk > 6 and r mod Nk = 4.
(41_key_schedule.md R115, R116; 40_gf_tables.md R95, R99) -/
def Obligations.ForwardScheduleFollowsTheRecurrence : Prop :=
  ∀ s t : State, s.Inv → exec .expandkey s = .next t → t.err = 0 →
    let nk := s.keylen / 4
    (∀ r < nk, t.key.ks.getD r 0 = be32 s.keyin.toList r) ∧
    (∀ r, nk ≤ r → r < (nk + 7) * 4 →
      t.key.ks.getD r 0 = t.key.ks.getD (r - nk) 0 ^^^ scheduleTerm nk r (t.key.ks.getD (r - 1) 0))

/-- In every state of the invariant, where EXPANDKEY goes on with ERR = 0, with Nr = Nk + 6: INVKS[4q + c] is KS[4(Nr - q)
+ P(c)] for q = 0 and q = Nr and IMC of it for 0 < q < Nr, where P is 0, 3, 2, 1. (41_key_schedule.md R117) -/
def Obligations.InverseScheduleIsTheReorderedOne : Prop :=
  ∀ s t : State, s.Inv → exec .expandkey s = .next t → t.err = 0 →
    let nr := s.keylen / 4 + 6
    ∀ q ≤ nr, ∀ c < 4,
      let w := t.key.ks.getD (4 * (nr - q) + (4 - c) % 4) 0
      t.key.invks.getD (4 * q + c) 0 = if q = 0 ∨ q = nr then w else imc initTables w

/-- For all bytes a0..a3, IMC of the word (a0,a1,a2,a3) is the word of the four InvMixColumns sums; IMC(a^b) =
IMC(a)^IMC(b), IMC(0) = 0, and the three examples hold. (R118) -/
def Obligations.ImcIsInvMixColumns : Prop :=
  (∀ a0 a1 a2 a3 : Byte, imc initTables (wordOf a0 a1 a2 a3) = wordOf
      (gmul 14 a0 ^^^ gmul 11 a1 ^^^ gmul 13 a2 ^^^ gmul 9 a3)
      (gmul 9 a0 ^^^ gmul 14 a1 ^^^ gmul 11 a2 ^^^ gmul 13 a3)
      (gmul 13 a0 ^^^ gmul 9 a1 ^^^ gmul 14 a2 ^^^ gmul 11 a3)
      (gmul 11 a0 ^^^ gmul 13 a1 ^^^ gmul 9 a2 ^^^ gmul 14 a3)) ∧
  (∀ t : Word, imc initTables t =
    lookup initTables.invSubMix.k0 (sboxByte (byteAt t 3)) ^^^ lookup initTables.invSubMix.k1 (sboxByte (byteAt t 2)) ^^^
    lookup initTables.invSubMix.k2 (sboxByte (byteAt t 1)) ^^^ lookup initTables.invSubMix.k3 (sboxByte (byteAt t 0))) ∧
  (∀ a b : Word, imc initTables (a ^^^ b) = imc initTables a ^^^ imc initTables b) ∧
  imc initTables 0 = 0 ∧ imc initTables 0x549932d1 = 0x13aa29be ∧
  imc initTables 0x00000001 = 0x090d0b0e ∧ imc initTables 0x01000000 = 0x0e090d0b

/-- Two states of the invariant with the same KEYLEN and the same key bytes below it have, after an EXPANDKEY that
succeeds in each, the same KEY, KEYSIZE, KSROWS, KS and INVKS, whatever keys were loaded before. (41_key_schedule.md
R114, R119; 10_state.md R27) -/
def Obligations.KeyStateDependsOnTheKeyAlone : Prop :=
  ∀ s s' t t' : State, s.Inv → s'.Inv → s.keylen = s'.keylen →
    (∀ i < s.keylen, s.keyin.toList.getD i 0 = s'.keyin.toList.getD i 0) →
    exec .expandkey s = .next t → exec .expandkey s' = .next t' → t.err = 0 → t'.err = 0 →
    t.key.words = t'.key.words ∧ t.key.keySize = t'.key.keySize ∧ t.key.ksRows = t'.key.ksRows ∧
    t.key.ks = t'.key.ks ∧ t.key.invks = t'.key.invks

/-- Unless the instance is destroyed, DECRYPT and DECRYPT.S with OFFSET > IN_LEN or (IN_LEN - OFFSET) mod 16 not 0 are
refused. (R147) -/
def Obligations.DecryptOutOfContractIsRefused : Prop :=
  ∀ (s : State) (strip : Bool), s.destroyed = false →
    (s.offset > s.inLen ∨ (s.inLen - s.offset) % 16 ≠ 0) → exec (.decrypt strip) s = .refused .bufferContract

/-- Unless the instance is destroyed, DECRYPT and DECRYPT.S in contract give a next state that differs in OUT, OUT_LEN,
the working registers and ERR = 0 at most (and in the model's own count of free values, log entry 4). That it does so
with no key and a block to process too is the model's choice among the two treatments of R144 and U3 (log entry 5).
(42_block_decrypt.md R130, R144; 93_implementation_defined.md U3) -/
def Obligations.DecryptCompletesAndWritesOnlyItsOwn : Prop :=
  ∀ (s : State) (strip : Bool), s.destroyed = false → s.inContract →
    ∃ (m : Memory) (n : Nat) (wk : Working) (d : Nat),
      exec (.decrypt strip) s = .next { s with outMem := m, outLen := n, work := wk, draws := d, err := 0 }

/-- Unless the instance is destroyed, DECRYPT in contract completes with OUT_LEN = IN_LEN; OUT has a byte at every address
below IN_LEN and none at or above it; every byte below OFFSET is 0x00, whatever OUT held before. With no key and a
block to process, that it completes rather than being refused is the model's choice (R144, U3, log entry 5).
(42_block_decrypt.md R140, R144, R145; 93_implementation_defined.md U3) -/
def Obligations.OutputIsAsLongAsTheInputAndZeroBelowOffset : Prop :=
  ∀ s : State, s.destroyed = false → s.inContract →
    ∃ t, exec (.decrypt false) s = .next t ∧ t.outLen = s.inLen ∧
      (∀ a < s.offset, t.out a = some 0x00) ∧ (∀ a, (t.out a).isSome = true ↔ a < s.inLen)

/-- Unless the instance is destroyed, DECRYPT and DECRYPT.S with OFFSET = IN_LEN complete with OUT_LEN = IN_LEN and every
byte of OUT 0x00. (42_block_decrypt.md R146; 70_reset_and_hazards.md R194; 43_padding_strip.md R153, R154) -/
def Obligations.ZeroBlocksGiveZeroBytesWhateverTheKey : Prop :=
  ∀ (s : State) (strip : Bool), s.destroyed = false → s.offset = s.inLen →
    ∃ t, exec (.decrypt strip) s = .next t ∧ t.err = 0 ∧ t.outLen = s.inLen ∧ ∀ a < s.inLen, t.out a = some 0x00

/-- In every state of the invariant with a key loaded and the buffer in contract, DECRYPT and DECRYPT.S complete, and byte
j of block i of OUT is byte j of InvCipher of ciphertext block i under the key schedule KS, XOR byte j of the
ciphertext block before it (the IV before the first), for every block; with DECRYPT every block is within OUT, with
DECRYPT.S the bytes that are. (R141) -/
def Obligations.DecryptIsStandardAesCbc : Prop :=
  ∀ (s : State) (strip : Bool), s.Inv → s.key.keySize ≠ 0 → s.inContract →
    ∃ t, exec (.decrypt strip) s = .next t ∧ (strip = false → t.outLen = s.inLen) ∧
      isStandardCbc s t s.key.keySize s.key.ks

/-- From any state of the invariant in which EXPANDKEY goes on with ERR = 0: at every state with the tables and the key
state it left, not destroyed and in contract, DECRYPT and DECRYPT.S complete and OUT is the standard AES-CBC
decryption under the key schedule of that key operand. (41_key_schedule.md R119; 42_block_decrypt.md R141) -/
def Obligations.ExpandedKeyDecryptsByTheStandard : Prop :=
  ∀ (s t u : State) (strip : Bool), s.Inv → exec .expandkey s = .next t → t.err = 0 → u.tables = t.tables → u.key = t.key →
    u.destroyed = false → u.inContract →
    ∃ w, exec (.decrypt strip) u = .next w ∧ (strip = false → w.outLen = u.inLen) ∧
      isStandardCbc u w (s.keylen / 4) (schedule initTables (keyOperand s))

/-- Two states of the invariant that agree on KEYSIZE, INVKS, IN_LEN, OFFSET, IVIN and the bytes of IN from OFFSET to
IN_LEN, with a key loaded or no block to process, give the same OUT and OUT_LEN by DECRYPT, and by DECRYPT.S; bytes of
IN below OFFSET, earlier output and working registers influence nothing. (42_block_decrypt.md R143; 10_state.md R35) -/
def Obligations.DecryptIsAPureFunctionOfItsInputs : Prop :=
  ∀ (s s' t t' : State) (strip : Bool), s.Inv → s'.Inv → s.key.keySize = s'.key.keySize →
    s.key.invks = s'.key.invks → s.inLen = s'.inLen → s.offset = s'.offset → s.ivin = s'.ivin →
    (∀ a, s.offset ≤ a → a < s.inLen → s.inMem.read a = s'.inMem.read a) →
    (s.key.keySize ≠ 0 ∨ s.offset = s.inLen) →
    exec (.decrypt strip) s = .next t → exec (.decrypt strip) s' = .next t' →
    t.outLen = t'.outLen ∧ t.outMem = t'.outMem

/-- Where a DECRYPT (either form) leads from s to t, and the host then sets any operands, a DECRYPT with a key loaded
gives from t the same OUT and OUT_LEN as the same command with the same operands from s. (42_block_decrypt.md R143;
10_state.md R29) -/
def Obligations.EarlierDecryptLeavesNoTrace : Prop :=
  ∀ (s t u v : State) (first second : Bool) (m : Memory) (n o : Nat) (iv : Vector Byte 16),
    s.key.keySize ≠ 0 → exec (.decrypt first) s = .next t →
    exec (.decrypt second) (t.withDecryptOperands m n o iv) = .next u →
    exec (.decrypt second) (s.withDecryptOperands m n o iv) = .next v →
    u.outLen = v.outLen ∧ u.outMem = v.outMem

/-- With a key loaded, two states that differ in IVIN only give by DECRYPT the same bytes of OUT from OFFSET + 16 on, and
bytes of the first block that differ by the XOR of the IV bytes. (42_block_decrypt.md R143, R144) -/
def Obligations.IvReachesOnlyTheFirstBlock : Prop :=
  ∀ (s t t' : State) (iv : Vector Byte 16), s.key.keySize ≠ 0 →
    exec (.decrypt false) s = .next t → exec (.decrypt false) { s with ivin := iv } = .next t' →
    (∀ a, s.offset + 16 ≤ a → t.out a = t'.out a) ∧
    (∀ j < 16, s.offset < s.inLen → ∃ p p', t.out (s.offset + j) = some p ∧ t'.out (s.offset + j) = some p' ∧
      p ^^^ p' = s.ivin.toList.getD j 0 ^^^ iv.toList.getD j 0)

/-- Unless the instance is destroyed, in contract and with a key loaded or no block to process: with n and p the length
and the last byte of what DECRYPT leaves, DECRYPT.S leaves length n where n = 0 or p = 0, n - p where 0 < p <= n and 0
where p > n, with the same bytes below it and none at or above it; no other byte decides anything. That p > n gives 0
is the spec's value of the parameter UNPAD_OVERRUN (D11, log entry 7). (43_padding_strip.md R150 to R154;
42_block_decrypt.md R145) -/
def Obligations.StripShortensByTheLastByte : Prop :=
  ∀ s : State, s.destroyed = false → s.inContract → (s.key.keySize ≠ 0 ∨ s.offset = s.inLen) →
    ∃ t u, exec (.decrypt false) s = .next t ∧ exec (.decrypt true) s = .next u ∧
      (t.outLen = 0 → u.outLen = 0) ∧
      (∀ p : Byte, 0 < t.outLen → t.out (t.outLen - 1) = some p →
        (p = 0 → u.outLen = t.outLen) ∧
        (p ≠ 0 → p.toNat ≤ t.outLen → u.outLen = t.outLen - p.toNat) ∧
        (t.outLen < p.toNat → u.outLen = 0)) ∧
      (∀ a < u.outLen, u.out a = t.out a) ∧ (∀ a, u.outLen ≤ a → u.out a = none)

/-- Unless the instance is destroyed, with KEYSIZE = 0, the buffer in contract and at least one block: DECRYPT completes
with ERR = 0 and OUT_LEN = IN_LEN, and byte OFFSET + i of OUT is the i-th free value drawn; DECRYPT.S completes with
ERR = 0, OUT_LEN is IN_LEN shortened by the free value drawn last (0 where that is more than IN_LEN, log entry 7), and
the bytes within it are the free values. That the command runs, and that each of these bytes is a free value, is the
model's choice among the spec's two treatments (log entries 4 and 5); it holds for every value of the free bytes.
(42_block_decrypt.md R144; 43_padding_strip.md R150 to R152; 70_reset_and_hazards.md R194;
93_implementation_defined.md U3) -/
def Obligations.NoKeyGivesFreeBytesAndNoError : Prop :=
  ∀ s : State, s.destroyed = false → s.key.keySize = 0 → s.inContract → s.offset < s.inLen →
    (∃ t, exec (.decrypt false) s = .next t ∧ t.err = 0 ∧ t.outLen = s.inLen ∧
      ∀ i < s.inLen - s.offset, t.out (s.offset + i) = some (Config.freeByte (s.draws + i))) ∧
    (∃ u, exec (.decrypt true) s = .next u ∧ u.err = 0 ∧
      u.outLen = s.inLen - (Config.freeByte (s.draws + (s.inLen - s.offset - 1))).toNat ∧
      ∀ i < s.inLen - s.offset, s.offset + i < u.outLen →
        u.out (s.offset + i) = some (Config.freeByte (s.draws + i)))

/-- From every state DESTROY completes; every entry of the ten tables is 0, every cell of KEY, KS and INVKS is 0 and the
three arrays are empty, OUT is empty, V, W, S, T are 0, the flags are 0, 0, 1, ERR = 0 and STATUS = 0x04; RCON, OFF,
RND, KSP, the host-written registers, IN and the rest are as they were. (R160) -/
def Obligations.DestroyClearsTablesKeysOutputAndWorkingWords : Prop :=
  ∀ s : State, ∃ t, exec .destroy s = .next t ∧
    (∀ x : Byte, lookup t.tables.sbox x = 0 ∧ lookup t.tables.invSbox x = 0 ∧
      lookup t.tables.subMix.k0 x = 0 ∧ lookup t.tables.subMix.k1 x = 0 ∧
      lookup t.tables.subMix.k2 x = 0 ∧ lookup t.tables.subMix.k3 x = 0 ∧
      lookup t.tables.invSubMix.k0 x = 0 ∧ lookup t.tables.invSubMix.k1 x = 0 ∧
      lookup t.tables.invSubMix.k2 x = 0 ∧ lookup t.tables.invSubMix.k3 x = 0) ∧
    (∀ w ∈ t.key.keyCells.toList, w = 0) ∧ (∀ w ∈ t.key.ksCells.toList, w = 0) ∧
    (∀ w ∈ t.key.invksCells.toList, w = 0) ∧
    t.key.words = [] ∧ t.key.keySize = 0 ∧ t.key.ks = [] ∧ t.key.invks = [] ∧ t.key.ksRows = 0 ∧
    t.outMem = [] ∧ t.outLen = 0 ∧
    t.work.v = Quad.zero ∧ t.work.w = Quad.zero ∧ t.work.s = Quad.zero ∧ t.work.t = Quad.zero ∧
    t.tablesReady = false ∧ t.keyLoaded = false ∧ t.destroyed = true ∧ t.err = 0 ∧ t.status = 0x04 ∧
    t.tables.rcon = s.tables.rcon ∧ t.work.off = s.work.off ∧ t.work.rnd = s.work.rnd ∧ t.work.ksp = s.work.ksp ∧
    t.cmd = s.cmd ∧ t.keylen = s.keylen ∧ t.keyin = s.keyin ∧ t.offset = s.offset ∧ t.inLen = s.inLen ∧
    t.ivin = s.ivin ∧ t.inMem = s.inMem ∧ t.expansions = s.expansions ∧ t.draws = s.draws ∧ t.host = s.host

/-- Two states that differ at most in the tables but for RCON, the key state, the working words, OUT, OUT_LEN, the flags
and ERR are the same state after DESTROY. (44_lifecycle.md R162, R163) -/
def Obligations.DestroyForgetsKeyAndPlaintext : Prop :=
  ∀ (s s' : State), s' = { s with
      tables := { s'.tables with rcon := s.tables.rcon }, key := s'.key
      work := { s.work with v := s'.work.v, w := s'.work.w, s := s'.work.s, t := s'.work.t }
      outMem := s'.outMem, outLen := s'.outLen, tablesReady := s'.tablesReady, keyLoaded := s'.keyLoaded
      destroyed := s'.destroyed, err := s'.err } →
    exec .destroy s' = exec .destroy s

/-- With DESTROYED = 1, EXPANDKEY and both forms of DECRYPT are refused whatever their operands; and in the states of the
invariant DESTROY completes with STATUS 0x04, an illegal byte completes with STATUS 0x24, STATUS and OUT_LEN can be
read, OUT_LEN is 0, and the reset input gives STATUS 0x01. (R196) -/
def Obligations.DestroyedInstanceRefusesKeyAndDecrypt : Prop :=
  (∀ (s : State) (strip : Bool), s.destroyed = true →
    exec .expandkey s = .refused .destroyedInstance ∧ exec (.decrypt strip) s = .refused .destroyedInstance) ∧
  (∀ s : State, s.Inv → s.destroyed = true →
    (∃ t, exec .destroy s = .next t ∧ t.status = 0x04) ∧
    (∀ b : Byte, b ≠ 1 → b ≠ 2 → b ≠ 3 → b ≠ 6 → ∃ t, runCommand b s = .next t ∧ t.status = 0x24) ∧
    readRegister 1 s = some s.status.toNat ∧ readRegister 5 s = some 0 ∧
    (∃ t, hostAccess .reset s = .next t ∧ t.status = 0x01))

/-- Where DESTROYED = 1 and the step is not the reset input, a step that goes on leaves DESTROYED = 1. (44_lifecycle.md
R164; 10_state.md R31) -/
def Obligations.OnlyResetLeavesTheDestroyedState : Prop :=
  ∀ s t : State, s.destroyed = true → step s = .next t →
    (∀ xs, s.cmd = none → s.host ≠ .reset :: xs) → t.destroyed = true

/-- In every state of the invariant (which has the flags in one of the three combinations; that every reachable state
satisfies it is ReachableStatesSatisfyTheInvariant): an EXPANDKEY that succeeds leads to KEYED (with the loaded key
nothing but ERR is written, which cannot occur in NOKEY; with another the key is replaced), one that fails and a
DECRYPT keep the state and the key, DESTROY leads to DESTROYED, an illegal byte keeps the state and reset leads to
NOKEY; EXPANDKEY and DECRYPT never go on in DESTROYED; STATUS bits 2:0 are 001, 011, 100. (70_reset_and_hazards.md
R195) -/
def Obligations.LifecycleMovesAsTheTableSays : Prop :=
  ∀ s : State, s.Inv →
    ((s.lifecycle = some .noKey ∧ s.status.extractLsb' 0 3 = 0b001) ∨
     (s.lifecycle = some .keyed ∧ s.status.extractLsb' 0 3 = 0b011) ∨
     (s.lifecycle = some .destroyed ∧ s.status.extractLsb' 0 3 = 0b100)) ∧
    (∀ t, exec .expandkey s = .next t → s.lifecycle ≠ some .destroyed ∧
      (t.err = 0 → t.lifecycle = some .keyed ∧ (s.lifecycle = some .noKey → ¬ s.holdsKey) ∧
        (s.holdsKey → t = { s with err := 0 }) ∧ (¬ s.holdsKey → t.key.words = keyOperand s)) ∧
      (t.err ≠ 0 → t.lifecycle = s.lifecycle ∧ t.key = s.key)) ∧
    (∀ strip t, exec (.decrypt strip) s = .next t →
      s.lifecycle ≠ some .destroyed ∧ t.lifecycle = s.lifecycle ∧ t.key = s.key) ∧
    (∀ t, exec .destroy s = .next t → t.lifecycle = some .destroyed) ∧
    (∀ b e t, decodeCmd b = .error e → runCommand b s = .next t → t.lifecycle = s.lifecycle ∧ t.key = s.key) ∧
    (∀ t, hostAccess .reset s = .next t → t.lifecycle = some .noKey)

/-- For every command byte that the CORE performs: ERR afterwards is 0, 1 or 2; it is 1 exactly when the byte is EXPANDKEY
and KEYLEN is not 16, 24 or 32; it is 2 exactly when the byte is not 0x01, 0x02, 0x03 or 0x06; and where it is not 0
the state is the old one but for ERR. (R170) -/
def Obligations.EveryOutcomeAndItsCode : Prop :=
  ∀ (b : Byte) (s t : State), runCommand b s = .next t →
    (t.err = 0 ∨ t.err = 1 ∨ t.err = 2) ∧
    (t.err = 1 ↔ b = 0x01 ∧ ¬ s.validKey) ∧
    (t.err = 2 ↔ b ≠ 0x01 ∧ b ≠ 0x02 ∧ b ≠ 0x03 ∧ b ≠ 0x06) ∧
    (t.err ≠ 0 → t = { s with err := t.err })

/-- For every instruction and state: exec gives a next state exactly where the instruction is DESTROY, or the instance is
not destroyed and, for DECRYPT, the buffer is in contract; and exec never answers a fault. The refused cases are those
of U1 and U5; that DECRYPT with no key and a block to process goes on, where the third contract line of R130 fails, is
the model's choice among the two treatments of R144, R194 and U3 (log entry 5). (60_exceptions.md R175;
70_reset_and_hazards.md R196, R201; 42_block_decrypt.md R144, R147; 93_implementation_defined.md U1, U3, U5) -/
def Obligations.CommandsGoOnExactlyOutsideTheRefusedCases : Prop :=
  ∀ (i : Instr) (s : State),
    ((∃ t, exec i s = .next t) ↔
      (i = .destroy ∨ (s.destroyed = false ∧ (i = .expandkey ∨ s.inContract)))) ∧
    (∀ f, exec i s ≠ .fault f)

/-- For every command byte that the CORE performs, illegal ones included, the host-written registers, every byte of IN,
CMD and the host's list are as they were. (10_state.md R33; 20_memory.md R51; 44_lifecycle.md R163) -/
def Obligations.CommandsNeverWriteTheHostsSide : Prop :=
  ∀ (b : Byte) (s t : State), runCommand b s = .next t →
    t.keylen = s.keylen ∧ t.offset = s.offset ∧ t.inLen = s.inLen ∧ t.keyin = s.keyin ∧ t.ivin = s.ivin ∧
    (∀ a, t.inMem.read a = s.inMem.read a) ∧ t.cmd = s.cmd ∧ t.host = s.host

/-- For every instruction that goes on: unless it is DESTROY the tables, TABLES_READY and DESTROYED are as they were; if
it is DECRYPT the key state, KEY_LOADED and EXPANSIONS are as they were; if it is EXPANDKEY OUT, OUT_LEN, the working
registers and the count of free values are as they were. (10_state.md R24, R35, R38; 70_reset_and_hazards.md R199) -/
def Obligations.EachStateHasItsOwnWriters : Prop :=
  ∀ (i : Instr) (s t : State), exec i s = .next t →
    (i ≠ .destroy → t.tables = s.tables ∧ t.tablesReady = s.tablesReady ∧ t.destroyed = s.destroyed) ∧
    (∀ strip, i = .decrypt strip → t.key = s.key ∧ t.keyLoaded = s.keyLoaded ∧ t.expansions = s.expansions) ∧
    (i = .expandkey → (∀ a, t.out a = s.out a) ∧ t.outLen = s.outLen ∧ t.work = s.work ∧ t.draws = s.draws)

/-- For a byte space in canonical form: after a word is stored at address a, byte a + i is byte 3 - i of the word for i <
4, every other byte is as it was, the word reads back, and the form is kept. (20_memory.md R55; 00_scope.md R12) -/
def Obligations.WordsOfAByteSpaceAreBigEndian : Prop :=
  ∀ (m : Memory) (a : Nat) (w : Word), m.wf →
    (∀ i < 4, (m.writeWord a w).read (a + i) = byteAt w (3 - i)) ∧
    (∀ x, (x < a ∨ a + 4 ≤ x) → (m.writeWord a w).read x = m.read x) ∧
    (m.writeWord a w).readWord a = w ∧ (m.writeWord a w).wf

/-- For a byte space in canonical form: a byte written at an address reads back there and leaves every other address as it
was; after a byte string is written from address a, reading as many bytes from a gives the string, address a + i reads
as byte i of it, every address outside reads as before, and the form is kept. (20_memory.md R50, R58; 00_scope.md R12) -/
def Obligations.BytesWrittenToAByteSpaceReadBack : Prop :=
  ∀ (m : Memory) (a : Nat) (b : Byte) (bs : List Byte), m.wf →
    (∀ x, (m.write a b).read x = if x = a then b else m.read x) ∧ (m.write a b).wf ∧
    (m.writeBytes a bs).readBytes a bs.length = bs ∧
    (∀ i < bs.length, (m.writeBytes a bs).read (a + i) = bs.getD i 0) ∧
    (∀ x, (x < a ∨ a + bs.length ≤ x) → (m.writeBytes a bs).read x = m.read x) ∧ (m.writeBytes a bs).wf

/-- State.reset satisfies State.Inv: the flags are those of NOKEY, no key state is held, the tables are those of INIT, ERR
is 0 and IN and OUT are in canonical form. (10_state.md R27, R39; 70_reset_and_hazards.md R195) -/
def Obligations.ResetSatisfiesTheInvariant : Prop :=
  State.reset.Inv

/-- From every state of the invariant, a step that goes on (a command, an illegal byte, a host access, the reset input or
idleness) leads to a state of the invariant: legal flags, both schedules derivable from KEY, tables those of INIT
until DESTROY and everything zero after it, ERR 0, 1 or 2, IN and OUT in canonical form and OUT within OUT_LEN.
(10_state.md R24, R27, R32; 44_lifecycle.md R162; 70_reset_and_hazards.md R195; 20_memory.md R50) -/
def Obligations.StepKeepsTheInvariant : Prop :=
  ∀ s t : State, s.Inv → step s = .next t → t.Inv

/-- Whatever accesses the host makes after reset, commands, illegal bytes and reset inputs among them, and however many
steps are run, a state reached satisfies the invariant and has its three flags in one of the combinations 1, 0, 0 and
1, 1, 0 and 0, 0, 1. The host's list is the model's (log entry 1). (70_reset_and_hazards.md R190, R195; 10_state.md
R27) -/
def Obligations.ReachableStatesSatisfyTheInvariant : Prop :=
  ∀ (xs : List HostAction) (n : Nat) (s : State),
    Host.Core.run Sys2Proof.core n ({ State.reset with host := xs } : State) = .next s →
    s.Inv ∧ ((s.tablesReady, s.keyLoaded, s.destroyed) = (true, false, false) ∨
      (s.tablesReady, s.keyLoaded, s.destroyed) = (true, true, false) ∨
      (s.tablesReady, s.keyLoaded, s.destroyed) = (false, false, true))

end
end

