-- ==== Sys2Proof/Laws/Bits.lean ====
section
/-! SUPPORT. Bytes in words: taking a word apart and putting it together, and how XOR, rotation and shifts act on bytes. -/

namespace Sys2Proof.Machine

theorem getLsbD_byteAt (w : Word) (n i : Nat) :
    (byteAt w n).getLsbD i = (decide (i < 8) && w.getLsbD (8 * n + i)) := by
  simp [byteAt, BitVec.getLsbD_extractLsb']

theorem getLsbD_wordOf (a b c d : Byte) (i : Nat) :
    (wordOf a b c d).getLsbD i =
      if i < 8 then d.getLsbD i else if i < 16 then c.getLsbD (i - 8)
      else if i < 24 then b.getLsbD (i - 16) else a.getLsbD (i - 24) := by
  show (a ++ b ++ c ++ d : BitVec (8 + 8 + 8 + 8)).getLsbD i = _
  simp only [BitVec.getLsbD_append, Nat.sub_sub]
  split_ifs <;> first | rfl | omega

@[simp] theorem byteAt_wordOf_three (a b c d : Byte) : byteAt (wordOf a b c d) 3 = a := by
  refine BitVec.eq_of_getLsbD_eq fun i hi => ?_
  rw [getLsbD_byteAt, getLsbD_wordOf, if_neg (by omega), if_neg (by omega), if_neg (by omega)]
  simp [hi]

@[simp] theorem byteAt_wordOf_two (a b c d : Byte) : byteAt (wordOf a b c d) 2 = b := by
  refine BitVec.eq_of_getLsbD_eq fun i hi => ?_
  rw [getLsbD_byteAt, getLsbD_wordOf, if_neg (by omega), if_neg (by omega), if_pos (by omega)]
  simp [hi]

@[simp] theorem byteAt_wordOf_one (a b c d : Byte) : byteAt (wordOf a b c d) 1 = c := by
  refine BitVec.eq_of_getLsbD_eq fun i hi => ?_
  rw [getLsbD_byteAt, getLsbD_wordOf, if_neg (by omega), if_pos (by omega)]
  simp [hi]

@[simp] theorem byteAt_wordOf_zero (a b c d : Byte) : byteAt (wordOf a b c d) 0 = d := by
  refine BitVec.eq_of_getLsbD_eq fun i hi => ?_
  rw [getLsbD_byteAt, getLsbD_wordOf, if_pos (by omega)]
  simp [hi]

/-- A word is the word of its bytes. -/
theorem wordOf_byteAt (w : Word) : wordOf (byteAt w 3) (byteAt w 2) (byteAt w 1) (byteAt w 0) = w := by
  refine BitVec.eq_of_getLsbD_eq fun i hi => ?_
  simp only [getLsbD_wordOf, getLsbD_byteAt]
  split_ifs with h1 h2 h3
  · simp [h1]
  · rw [show 8 * 1 + (i - 8) = i by omega]; simp; omega
  · rw [show 8 * 2 + (i - 16) = i by omega]; simp; omega
  · rw [show 8 * 3 + (i - 24) = i by omega]; simp; omega

/-- Two words with the same four bytes are the same word. -/
theorem word_ext {w w' : Word} (h3 : byteAt w 3 = byteAt w' 3) (h2 : byteAt w 2 = byteAt w' 2)
    (h1 : byteAt w 1 = byteAt w' 1) (h0 : byteAt w 0 = byteAt w' 0) : w = w' := by
  rw [← wordOf_byteAt w, ← wordOf_byteAt w', h3, h2, h1, h0]

@[simp] theorem byteAt_xor (w w' : Word) (n : Nat) : byteAt (w ^^^ w') n = byteAt w n ^^^ byteAt w' n := by
  refine BitVec.eq_of_getLsbD_eq fun i hi => ?_
  rw [BitVec.getLsbD_xor, getLsbD_byteAt, getLsbD_byteAt, getLsbD_byteAt, BitVec.getLsbD_xor]
  simp [hi]

/-- XOR of words is XOR of their bytes. -/
theorem wordOf_xor (a b c d a' b' c' d' : Byte) :
    wordOf a b c d ^^^ wordOf a' b' c' d' = wordOf (a ^^^ a') (b ^^^ b') (c ^^^ c') (d ^^^ d') := by
  apply word_ext <;> simp

/-- Rotating a word right by a byte. -/
theorem rotateRight_wordOf (a b c d : Byte) : (wordOf a b c d).rotateRight 8 = wordOf d a b c := by
  refine BitVec.eq_of_getLsbD_eq fun i hi => ?_
  simp only [BitVec.getLsbD_rotateRight, getLsbD_wordOf]
  rcases Nat.lt_or_ge i 24 with h | h
  · have : i < 32 - 8 % 32 := by omega
    simp only [this, decide_true, cond_true]
    split_ifs <;> first | omega | (congr 1; omega)
  · have : ¬ i < 32 - 8 % 32 := by omega
    simp only [this, decide_false, cond_false, hi, decide_true, Bool.true_and, show i - (32 - 8 % 32) = i - 24 by omega]
    split_ifs <;> first | rfl | omega | contradiction

/-- The first byte of a word widened and shifted to its place. -/
theorem wordOf_eq_shifts (a b c d : Byte) :
    (zext32 a <<< 24) ||| (zext32 b <<< 16) ||| (zext32 c <<< 8) ||| zext32 d = wordOf a b c d := by
  refine BitVec.eq_of_getLsbD_eq fun i hi => ?_
  simp only [getLsbD_wordOf, zext32, BitVec.getLsbD_or, BitVec.getLsbD_shiftLeft, BitVec.getLsbD_setWidth]
  split_ifs with h1 h2 h3
  · simp [hi, h1, show i < 16 by omega, show i < 24 by omega]
  · simp [hi, h1, h2, show i < 24 by omega, show i - 8 < 32 by omega, BitVec.getLsbD_of_ge d i (by omega)]
  · simp [hi, h1, h2, h3, show i - 8 < 32 by omega, show i - 16 < 32 by omega, BitVec.getLsbD_of_ge d i (by omega),
      BitVec.getLsbD_of_ge c (i - 8) (by omega)]
  · simp [hi, h1, h2, h3, show i - 8 < 32 by omega, show i - 16 < 32 by omega, show i - 24 < 32 by omega,
      BitVec.getLsbD_of_ge d i (by omega), BitVec.getLsbD_of_ge c (i - 8) (by omega),
      BitVec.getLsbD_of_ge b (i - 16) (by omega)]

end Sys2Proof.Machine
end

