-- ==== Sys2Proof/Laws/Memory.lean ====
section
/-! SUPPORT. What the byte-space operations do, and that each keeps the canonical form. -/

namespace Sys2Proof.Machine

/-- The list below a head cell that is at its place. -/
theorem Memory.wf_tail {c : Host.Cell} {m : Memory} (h : Memory.wf (c :: m)) : Memory.wf m :=
  ⟨(List.pairwise_cons.mp h.1).2, fun x hx => h.2 x (List.mem_cons_of_mem _ hx)⟩

/-- Every address of the tail is above the head's. -/
theorem Memory.wf_head_lt {c : Host.Cell} {m : Memory} (h : Memory.wf (c :: m)) : ∀ x ∈ m, c.1 < x.1 :=
  (List.pairwise_cons.mp h.1).1

theorem Memory.wf_nil : Memory.wf [] := by simp [Memory.wf]

theorem Memory.wf_cons {c : Host.Cell} {m : Memory} :
    Memory.wf (c :: m) ↔ (∀ x ∈ m, c.1 < x.1) ∧ c.2 ≠ Config.unlisted ∧ Memory.wf m := by
  simp only [Memory.wf, List.pairwise_cons, List.mem_cons, forall_eq_or_imp]
  tauto

@[simp] theorem Memory.read_nil (a : Nat) : Memory.read [] a = Config.unlisted := rfl

theorem Memory.read_cons (c : Host.Cell) (m : Memory) (a : Nat) :
    Memory.read (c :: m) a = if c.1 = a then c.2 else Memory.read m a := rfl

/-- An address not listed reads as `Config.unlisted`. -/
theorem Memory.read_of_not_listed {m : Memory} {a : Nat} (h : ∀ c ∈ m, c.1 ≠ a) : m.read a = Config.unlisted := by
  induction m with
  | nil => rfl
  | cons c m ih =>
    rw [Memory.read_cons, if_neg (h c (by simp))]
    exact ih fun x hx => h x (by simp [hx])

/-- A cell of a written memory is the new one or an old one. -/
theorem Memory.mem_write {m : Memory} {a : Nat} {b : Byte} {c : Host.Cell} (h : c ∈ m.write a b) :
    (c = (a, b) ∧ b ≠ Config.unlisted) ∨ c ∈ m := by
  induction m with
  | nil =>
    simp only [Memory.write] at h
    split at h <;> simp_all
  | cons x m ih =>
    simp only [Memory.write] at h
    split_ifs at h <;> simp_all <;> tauto

theorem Memory.wf_write {m : Memory} (h : m.wf) (a : Nat) (b : Byte) : (m.write a b).wf := by
  induction m with
  | nil =>
    simp only [Memory.write]
    split
    · exact Memory.wf_nil
    · simp_all [Memory.wf]
  | cons x m ih =>
    obtain ⟨hlt, hne, hm⟩ := Memory.wf_cons.mp h
    simp only [Memory.write]
    split_ifs with h1 h2 h3 h4
    · refine Memory.wf_cons.mpr ⟨fun c hc => ?_, hne, ih hm⟩
      rcases Memory.mem_write hc with ⟨rfl, -⟩ | hc
      · exact h1
      · exact hlt c hc
    · exact hm
    · exact Memory.wf_cons.mpr ⟨fun c hc => h2 ▸ hlt c hc, h3, hm⟩
    · exact h
    · refine Memory.wf_cons.mpr ⟨fun c hc => ?_, h4, h⟩
      rcases List.mem_cons.mp hc with rfl | hc
      · simp only; omega
      · have := hlt c hc; simp only at this ⊢; omega

/-- The whole of what a write does to one memory in canonical form: read after write. -/
theorem Memory.read_write {m : Memory} (h : m.wf) (a : Nat) (b : Byte) (a' : Nat) :
    (m.write a b).read a' = if a' = a then b else m.read a' := by
  induction m with
  | nil =>
    simp only [Memory.write]
    split
    · simp_all
    · simp [Memory.read_cons, eq_comm]
  | cons x m ih =>
    obtain ⟨hlt, -, hm⟩ := Memory.wf_cons.mp h
    have hx : x.1 = a' → Memory.read m a' = Config.unlisted := fun he =>
      Memory.read_of_not_listed fun c hc => by have := hlt c hc; omega
    simp only [Memory.write]
    by_cases h1 : x.1 < a
    · simp only [if_pos h1, Memory.read_cons, ih hm]
      split_ifs <;> first | rfl | omega
    · by_cases h2 : x.1 = a
      · by_cases hb : b = Config.unlisted
        · simp only [if_neg h1, if_pos h2, if_pos hb, Memory.read_cons]
          by_cases h3 : a' = a
          · rw [if_pos h3, hb, hx (by omega)]
          · rw [if_neg h3, if_neg (by omega)]
        · simp only [if_neg h1, if_pos h2, if_neg hb, Memory.read_cons]
          split_ifs <;> first | rfl | omega
      · by_cases hb : b = Config.unlisted
        · simp only [if_neg h1, if_neg h2, if_pos hb, Memory.read_cons]
          by_cases h3 : a' = a
          · rw [if_pos h3, if_neg (by omega), hb]
            exact Memory.read_of_not_listed fun c hc => by have := hlt c hc; omega
          · rw [if_neg h3]
        · simp only [if_neg h1, if_neg h2, if_neg hb, Memory.read_cons]
          split_ifs <;> first | rfl | omega

/-- The canonical form makes equal contents equal data. -/
theorem Memory.ext_of_read {m m' : Memory} (h : m.wf) (h' : m'.wf) (e : ∀ a, m.read a = m'.read a) : m = m' := by
  induction m generalizing m' with
  | nil =>
    cases m' with
    | nil => rfl
    | cons y m' =>
      have := e y.1
      simp only [Memory.read_nil, Memory.read_cons, if_true] at this
      exact absurd this.symm (Memory.wf_cons.mp h').2.1
  | cons x m ih =>
    obtain ⟨hlt, hne, hm⟩ := Memory.wf_cons.mp h
    cases m' with
    | nil =>
      have := e x.1
      simp only [Memory.read_nil, Memory.read_cons, if_true] at this
      exact absurd this hne
    | cons y m' =>
      obtain ⟨hlt', hne', hm'⟩ := Memory.wf_cons.mp h'
      have low : ∀ {z : Host.Cell} {l : Memory}, (∀ c ∈ l, z.1 < c.1) → ∀ a, a ≤ z.1 → Memory.read l a = Config.unlisted :=
        fun hz a ha => Memory.read_of_not_listed fun c hc => by have := hz c hc; omega
      have key : x.1 = y.1 := by
        have ex := e x.1
        have ey := e y.1
        simp only [Memory.read_cons, if_true] at ex ey
        rcases Nat.lt_trichotomy x.1 y.1 with hl | he | hl
        · rw [if_neg (by omega), low hlt' _ (by omega)] at ex
          exact absurd ex hne
        · exact he
        · rw [if_neg (by omega), low hlt _ (by omega)] at ey
          exact absurd ey.symm hne'
      have val : x.2 = y.2 := by simpa [Memory.read_cons, key] using e x.1
      have tails : m = m' := ih hm hm' fun a => by
        have ea := e a
        simp only [Memory.read_cons, ← key] at ea
        by_cases hxa : x.1 = a
        · rw [low hlt a (by omega), low (key ▸ hlt') a (by omega)]
        · simpa [hxa] using ea
      rw [tails, Prod.ext key val]

theorem Memory.wf_truncate {m : Memory} (h : m.wf) (n : Nat) : (m.truncate n).wf :=
  ⟨h.1.filter _, fun c hc => h.2 c (List.mem_filter.mp hc).1⟩

/-- Truncation keeps the bytes below the bound and forgets the rest. -/
theorem Memory.read_truncate (m : Memory) (n a : Nat) :
    (m.truncate n).read a = if a < n then m.read a else Config.unlisted := by
  induction m with
  | nil => simp [Memory.truncate]
  | cons x m ih =>
    simp only [Memory.truncate] at ih ⊢
    simp only [List.filter_cons]
    split <;> simp only [Memory.read_cons, ih] <;> split_ifs <;> simp_all

/-- Every address of a truncated memory is below the bound. -/
theorem Memory.truncate_bound {m : Memory} {n : Nat} : ∀ c ∈ m.truncate n, c.1 < n := by
  intro c hc
  simpa using (List.mem_filter.mp hc).2

theorem Memory.wf_writeBytes {m : Memory} (h : m.wf) (a : Nat) (bs : List Byte) : (m.writeBytes a bs).wf := by
  induction bs generalizing m a with
  | nil => exact h
  | cons b bs ih => exact ih (Memory.wf_write h a b) (a + 1)

/-- The whole of what a write of rising bytes does. -/
theorem Memory.read_writeBytes {m : Memory} (h : m.wf) (a : Nat) (bs : List Byte) (a' : Nat) :
    (m.writeBytes a bs).read a' = if a ≤ a' ∧ a' < a + bs.length then bs.getD (a' - a) 0 else m.read a' := by
  induction bs generalizing m a with
  | nil =>
    rw [if_neg (by simp only [List.length_nil]; omega)]
    rfl
  | cons b bs ih =>
    simp only [Memory.writeBytes, ih (Memory.wf_write h a b), Memory.read_write h, List.length_cons]
    by_cases h1 : a' = a
    · subst h1
      rw [if_neg (by omega), if_pos rfl, if_pos (by omega)]
      simp
    · by_cases h2 : a + 1 ≤ a' ∧ a' < a + 1 + bs.length
      · rw [if_pos h2, if_pos (by omega), show a' - a = (a' - (a + 1)) + 1 by omega]
        simp
      · rw [if_neg h2, if_neg h1, if_neg (by omega)]

/-- The addresses of a memory written at rising addresses stay below a bound. -/
theorem Memory.writeBytes_bound {m : Memory} {n : Nat} (h : ∀ c ∈ m, c.1 < n) (a : Nat) (bs : List Byte)
    (hn : a + bs.length ≤ n) : ∀ c ∈ m.writeBytes a bs, c.1 < n := by
  induction bs generalizing m a with
  | nil => exact h
  | cons b bs ih =>
    simp only [List.length_cons] at hn
    refine ih (fun c hc => ?_) (a + 1) (by omega)
    rcases Memory.mem_write hc with ⟨rfl, -⟩ | hc
    · simp only; omega
    · exact h c hc

theorem Memory.length_readBytes (m : Memory) (a n : Nat) : (m.readBytes a n).length = n := by
  induction n generalizing a with
  | zero => rfl
  | succ n ih => simp [Memory.readBytes, ih]

/-- Reading bytes at rising addresses reads each of them. -/
theorem Memory.getD_readBytes (m : Memory) (a n i : Nat) (h : i < n) : (m.readBytes a n).getD i 0 = m.read (a + i) := by
  induction n generalizing a i with
  | zero => omega
  | succ n ih =>
    cases i with
    | zero => rfl
    | succ i =>
      simp only [Memory.readBytes, List.getD_cons_succ]
      rw [ih (a + 1) i (by omega)]
      congr 1
      omega

/-- The sixteen bytes of a block, most significant byte of the first word first (R138). -/
def Quad.bytes (p : Quad) : List Byte :=
  [byteAt p.w0 3, byteAt p.w0 2, byteAt p.w0 1, byteAt p.w0 0, byteAt p.w1 3, byteAt p.w1 2, byteAt p.w1 1, byteAt p.w1 0,
   byteAt p.w2 3, byteAt p.w2 2, byteAt p.w2 1, byteAt p.w2 0, byteAt p.w3 3, byteAt p.w3 2, byteAt p.w3 1, byteAt p.w3 0]

/-- A block store is the store of its sixteen bytes. -/
theorem writeBlock_eq (m : Memory) (a : Nat) (p : Quad) : writeBlock m a p = m.writeBytes a p.bytes := rfl

theorem wf_writeBlock {m : Memory} (h : m.wf) (a : Nat) (p : Quad) : (writeBlock m a p).wf :=
  writeBlock_eq m a p ▸ Memory.wf_writeBytes h a _

/-- The whole of what a block store does (R138): sixteen bytes at `a`, every other byte as before. -/
theorem read_writeBlock {m : Memory} (h : m.wf) (a : Nat) (p : Quad) (a' : Nat) :
    (writeBlock m a p).read a' = if a ≤ a' ∧ a' < a + 16 then p.bytes.getD (a' - a) 0 else m.read a' := by
  rw [writeBlock_eq, Memory.read_writeBytes h]
  rfl

end Sys2Proof.Machine
end

