-- ==== Sys2Proof/Laws/State.lean ====
section
/-! SUPPORT. What each update of the state leaves in each field, and the frame of each operation that is more than one
update. -/

namespace Sys2Proof.Machine

/-! ### setKeyLoaded -/

@[simp] theorem setKeyLoaded_tables (s : State) : (setKeyLoaded s).tables = s.tables := rfl
@[simp] theorem setKeyLoaded_key (s : State) : (setKeyLoaded s).key = s.key := rfl
@[simp] theorem setKeyLoaded_work (s : State) : (setKeyLoaded s).work = s.work := rfl
@[simp] theorem setKeyLoaded_cmd (s : State) : (setKeyLoaded s).cmd = s.cmd := rfl
@[simp] theorem setKeyLoaded_keylen (s : State) : (setKeyLoaded s).keylen = s.keylen := rfl
@[simp] theorem setKeyLoaded_offset (s : State) : (setKeyLoaded s).offset = s.offset := rfl
@[simp] theorem setKeyLoaded_inLen (s : State) : (setKeyLoaded s).inLen = s.inLen := rfl
@[simp] theorem setKeyLoaded_outLen (s : State) : (setKeyLoaded s).outLen = s.outLen := rfl
@[simp] theorem setKeyLoaded_keyin (s : State) : (setKeyLoaded s).keyin = s.keyin := rfl
@[simp] theorem setKeyLoaded_ivin (s : State) : (setKeyLoaded s).ivin = s.ivin := rfl
@[simp] theorem setKeyLoaded_tablesReady (s : State) : (setKeyLoaded s).tablesReady = s.tablesReady := rfl
@[simp] theorem setKeyLoaded_keyLoaded (s : State) : (setKeyLoaded s).keyLoaded = true := rfl
@[simp] theorem setKeyLoaded_destroyed (s : State) : (setKeyLoaded s).destroyed = s.destroyed := rfl
@[simp] theorem setKeyLoaded_err (s : State) : (setKeyLoaded s).err = s.err := rfl
@[simp] theorem setKeyLoaded_inMem (s : State) : (setKeyLoaded s).inMem = s.inMem := rfl
@[simp] theorem setKeyLoaded_outMem (s : State) : (setKeyLoaded s).outMem = s.outMem := rfl
@[simp] theorem setKeyLoaded_expansions (s : State) : (setKeyLoaded s).expansions = s.expansions := rfl
@[simp] theorem setKeyLoaded_draws (s : State) : (setKeyLoaded s).draws = s.draws := rfl
@[simp] theorem setKeyLoaded_host (s : State) : (setKeyLoaded s).host = s.host := rfl

/-! ### setDestroyed -/

@[simp] theorem setDestroyed_tables (s : State) : (setDestroyed s).tables = s.tables := rfl
@[simp] theorem setDestroyed_key (s : State) : (setDestroyed s).key = s.key := rfl
@[simp] theorem setDestroyed_work (s : State) : (setDestroyed s).work = s.work := rfl
@[simp] theorem setDestroyed_cmd (s : State) : (setDestroyed s).cmd = s.cmd := rfl
@[simp] theorem setDestroyed_keylen (s : State) : (setDestroyed s).keylen = s.keylen := rfl
@[simp] theorem setDestroyed_offset (s : State) : (setDestroyed s).offset = s.offset := rfl
@[simp] theorem setDestroyed_inLen (s : State) : (setDestroyed s).inLen = s.inLen := rfl
@[simp] theorem setDestroyed_outLen (s : State) : (setDestroyed s).outLen = s.outLen := rfl
@[simp] theorem setDestroyed_keyin (s : State) : (setDestroyed s).keyin = s.keyin := rfl
@[simp] theorem setDestroyed_ivin (s : State) : (setDestroyed s).ivin = s.ivin := rfl
@[simp] theorem setDestroyed_tablesReady (s : State) : (setDestroyed s).tablesReady = false := rfl
@[simp] theorem setDestroyed_keyLoaded (s : State) : (setDestroyed s).keyLoaded = false := rfl
@[simp] theorem setDestroyed_destroyed (s : State) : (setDestroyed s).destroyed = true := rfl
@[simp] theorem setDestroyed_err (s : State) : (setDestroyed s).err = s.err := rfl
@[simp] theorem setDestroyed_inMem (s : State) : (setDestroyed s).inMem = s.inMem := rfl
@[simp] theorem setDestroyed_outMem (s : State) : (setDestroyed s).outMem = s.outMem := rfl
@[simp] theorem setDestroyed_expansions (s : State) : (setDestroyed s).expansions = s.expansions := rfl
@[simp] theorem setDestroyed_draws (s : State) : (setDestroyed s).draws = s.draws := rfl
@[simp] theorem setDestroyed_host (s : State) : (setDestroyed s).host = s.host := rfl

/-! ### releaseWork -/

@[simp] theorem releaseWork_tables (s : State) : (releaseWork s).tables = s.tables := rfl
@[simp] theorem releaseWork_key (s : State) : (releaseWork s).key = s.key := rfl
@[simp] theorem releaseWork_cmd (s : State) : (releaseWork s).cmd = s.cmd := rfl
@[simp] theorem releaseWork_keylen (s : State) : (releaseWork s).keylen = s.keylen := rfl
@[simp] theorem releaseWork_offset (s : State) : (releaseWork s).offset = s.offset := rfl
@[simp] theorem releaseWork_inLen (s : State) : (releaseWork s).inLen = s.inLen := rfl
@[simp] theorem releaseWork_outLen (s : State) : (releaseWork s).outLen = s.outLen := rfl
@[simp] theorem releaseWork_keyin (s : State) : (releaseWork s).keyin = s.keyin := rfl
@[simp] theorem releaseWork_ivin (s : State) : (releaseWork s).ivin = s.ivin := rfl
@[simp] theorem releaseWork_tablesReady (s : State) : (releaseWork s).tablesReady = s.tablesReady := rfl
@[simp] theorem releaseWork_keyLoaded (s : State) : (releaseWork s).keyLoaded = s.keyLoaded := rfl
@[simp] theorem releaseWork_destroyed (s : State) : (releaseWork s).destroyed = s.destroyed := rfl
@[simp] theorem releaseWork_err (s : State) : (releaseWork s).err = s.err := rfl
@[simp] theorem releaseWork_inMem (s : State) : (releaseWork s).inMem = s.inMem := rfl
@[simp] theorem releaseWork_outMem (s : State) : (releaseWork s).outMem = s.outMem := rfl
@[simp] theorem releaseWork_expansions (s : State) : (releaseWork s).expansions = s.expansions := rfl
@[simp] theorem releaseWork_draws (s : State) : (releaseWork s).draws = s.draws + 19 := rfl
@[simp] theorem releaseWork_host (s : State) : (releaseWork s).host = s.host := rfl

/-! ### startDecrypt -/

@[simp] theorem startDecrypt_tables (s : State) : (startDecrypt s).tables = s.tables := rfl
@[simp] theorem startDecrypt_key (s : State) : (startDecrypt s).key = s.key := rfl
@[simp] theorem startDecrypt_work (s : State) : (startDecrypt s).work = { s.work with v := ivOperand s, off := s.offset } := rfl
@[simp] theorem startDecrypt_cmd (s : State) : (startDecrypt s).cmd = s.cmd := rfl
@[simp] theorem startDecrypt_keylen (s : State) : (startDecrypt s).keylen = s.keylen := rfl
@[simp] theorem startDecrypt_offset (s : State) : (startDecrypt s).offset = s.offset := rfl
@[simp] theorem startDecrypt_inLen (s : State) : (startDecrypt s).inLen = s.inLen := rfl
@[simp] theorem startDecrypt_outLen (s : State) : (startDecrypt s).outLen = s.inLen := rfl
@[simp] theorem startDecrypt_keyin (s : State) : (startDecrypt s).keyin = s.keyin := rfl
@[simp] theorem startDecrypt_ivin (s : State) : (startDecrypt s).ivin = s.ivin := rfl
@[simp] theorem startDecrypt_tablesReady (s : State) : (startDecrypt s).tablesReady = s.tablesReady := rfl
@[simp] theorem startDecrypt_keyLoaded (s : State) : (startDecrypt s).keyLoaded = s.keyLoaded := rfl
@[simp] theorem startDecrypt_destroyed (s : State) : (startDecrypt s).destroyed = s.destroyed := rfl
@[simp] theorem startDecrypt_err (s : State) : (startDecrypt s).err = s.err := rfl
@[simp] theorem startDecrypt_inMem (s : State) : (startDecrypt s).inMem = s.inMem := rfl
@[simp] theorem startDecrypt_outMem (s : State) : (startDecrypt s).outMem = [] := rfl
@[simp] theorem startDecrypt_expansions (s : State) : (startDecrypt s).expansions = s.expansions := rfl
@[simp] theorem startDecrypt_draws (s : State) : (startDecrypt s).draws = s.draws := rfl
@[simp] theorem startDecrypt_host (s : State) : (startDecrypt s).host = s.host := rfl

/-! ### blockStep -/

@[simp] theorem blockStep_tables (s : State) : (blockStep s).tables = s.tables := rfl
@[simp] theorem blockStep_key (s : State) : (blockStep s).key = s.key := rfl
@[simp] theorem blockStep_cmd (s : State) : (blockStep s).cmd = s.cmd := rfl
@[simp] theorem blockStep_keylen (s : State) : (blockStep s).keylen = s.keylen := rfl
@[simp] theorem blockStep_offset (s : State) : (blockStep s).offset = s.offset := rfl
@[simp] theorem blockStep_inLen (s : State) : (blockStep s).inLen = s.inLen := rfl
@[simp] theorem blockStep_outLen (s : State) : (blockStep s).outLen = s.outLen := rfl
@[simp] theorem blockStep_keyin (s : State) : (blockStep s).keyin = s.keyin := rfl
@[simp] theorem blockStep_ivin (s : State) : (blockStep s).ivin = s.ivin := rfl
@[simp] theorem blockStep_tablesReady (s : State) : (blockStep s).tablesReady = s.tablesReady := rfl
@[simp] theorem blockStep_keyLoaded (s : State) : (blockStep s).keyLoaded = s.keyLoaded := rfl
@[simp] theorem blockStep_destroyed (s : State) : (blockStep s).destroyed = s.destroyed := rfl
@[simp] theorem blockStep_err (s : State) : (blockStep s).err = s.err := rfl
@[simp] theorem blockStep_inMem (s : State) : (blockStep s).inMem = s.inMem := rfl
@[simp] theorem blockStep_expansions (s : State) : (blockStep s).expansions = s.expansions := rfl
@[simp] theorem blockStep_draws (s : State) : (blockStep s).draws = s.draws := rfl
@[simp] theorem blockStep_host (s : State) : (blockStep s).host = s.host := rfl

/-! ### garbageBlocks -/

@[simp] theorem garbageBlocks_tables (s : State) : (garbageBlocks s).tables = s.tables := rfl
@[simp] theorem garbageBlocks_key (s : State) : (garbageBlocks s).key = s.key := rfl
@[simp] theorem garbageBlocks_work (s : State) : (garbageBlocks s).work = s.work := rfl
@[simp] theorem garbageBlocks_cmd (s : State) : (garbageBlocks s).cmd = s.cmd := rfl
@[simp] theorem garbageBlocks_keylen (s : State) : (garbageBlocks s).keylen = s.keylen := rfl
@[simp] theorem garbageBlocks_offset (s : State) : (garbageBlocks s).offset = s.offset := rfl
@[simp] theorem garbageBlocks_inLen (s : State) : (garbageBlocks s).inLen = s.inLen := rfl
@[simp] theorem garbageBlocks_outLen (s : State) : (garbageBlocks s).outLen = s.outLen := rfl
@[simp] theorem garbageBlocks_keyin (s : State) : (garbageBlocks s).keyin = s.keyin := rfl
@[simp] theorem garbageBlocks_ivin (s : State) : (garbageBlocks s).ivin = s.ivin := rfl
@[simp] theorem garbageBlocks_tablesReady (s : State) : (garbageBlocks s).tablesReady = s.tablesReady := rfl
@[simp] theorem garbageBlocks_keyLoaded (s : State) : (garbageBlocks s).keyLoaded = s.keyLoaded := rfl
@[simp] theorem garbageBlocks_destroyed (s : State) : (garbageBlocks s).destroyed = s.destroyed := rfl
@[simp] theorem garbageBlocks_err (s : State) : (garbageBlocks s).err = s.err := rfl
@[simp] theorem garbageBlocks_inMem (s : State) : (garbageBlocks s).inMem = s.inMem := rfl
@[simp] theorem garbageBlocks_outMem (s : State) : (garbageBlocks s).outMem = s.outMem.writeBytes s.offset (freeBytes s.draws (s.inLen - s.offset)) := rfl
@[simp] theorem garbageBlocks_expansions (s : State) : (garbageBlocks s).expansions = s.expansions := rfl
@[simp] theorem garbageBlocks_draws (s : State) : (garbageBlocks s).draws = s.draws + (s.inLen - s.offset) := rfl
@[simp] theorem garbageBlocks_host (s : State) : (garbageBlocks s).host = s.host := rfl

/-! ### expandKey -/

@[simp] theorem expandKey_tables (key : List Word) (s : State) : (expandKey key s).tables = s.tables := rfl
@[simp] theorem expandKey_key (key : List Word) (s : State) : (expandKey key s).key = expandedKey s.tables s.key key := rfl
@[simp] theorem expandKey_work (key : List Word) (s : State) : (expandKey key s).work = s.work := rfl
@[simp] theorem expandKey_cmd (key : List Word) (s : State) : (expandKey key s).cmd = s.cmd := rfl
@[simp] theorem expandKey_keylen (key : List Word) (s : State) : (expandKey key s).keylen = s.keylen := rfl
@[simp] theorem expandKey_offset (key : List Word) (s : State) : (expandKey key s).offset = s.offset := rfl
@[simp] theorem expandKey_inLen (key : List Word) (s : State) : (expandKey key s).inLen = s.inLen := rfl
@[simp] theorem expandKey_outLen (key : List Word) (s : State) : (expandKey key s).outLen = s.outLen := rfl
@[simp] theorem expandKey_keyin (key : List Word) (s : State) : (expandKey key s).keyin = s.keyin := rfl
@[simp] theorem expandKey_ivin (key : List Word) (s : State) : (expandKey key s).ivin = s.ivin := rfl
@[simp] theorem expandKey_tablesReady (key : List Word) (s : State) : (expandKey key s).tablesReady = s.tablesReady := rfl
@[simp] theorem expandKey_keyLoaded (key : List Word) (s : State) : (expandKey key s).keyLoaded = true := rfl
@[simp] theorem expandKey_destroyed (key : List Word) (s : State) : (expandKey key s).destroyed = s.destroyed := rfl
@[simp] theorem expandKey_err (key : List Word) (s : State) : (expandKey key s).err = s.err := rfl
@[simp] theorem expandKey_inMem (key : List Word) (s : State) : (expandKey key s).inMem = s.inMem := rfl
@[simp] theorem expandKey_outMem (key : List Word) (s : State) : (expandKey key s).outMem = s.outMem := rfl
@[simp] theorem expandKey_expansions (key : List Word) (s : State) : (expandKey key s).expansions = s.expansions + 1 := rfl
@[simp] theorem expandKey_draws (key : List Word) (s : State) : (expandKey key s).draws = s.draws := rfl
@[simp] theorem expandKey_host (key : List Word) (s : State) : (expandKey key s).host = s.host := rfl

/-- The chain value and the block address after a block (R139, R140). -/
@[simp] theorem blockStep_work_v (s : State) : (blockStep s).work.v = readBlock s.inMem s.work.off := rfl
@[simp] theorem blockStep_work_off (s : State) : (blockStep s).work.off = s.work.off + 16 := rfl

/-- What a block stores, and where (R138). -/
theorem blockStep_outMem (s : State) :
    (blockStep s).outMem = writeBlock s.outMem s.work.off
      ((cipherBlock s.tables s.key (readBlock s.inMem s.work.off)).xor s.work.v) := rfl

/-- The block loop writes OUT and the working registers, and nothing else. -/
theorem blockLoop_frame (n : Nat) (s : State) :
    blockLoop n s = { s with outMem := (blockLoop n s).outMem, work := (blockLoop n s).work } := by
  induction n generalizing s with
  | zero => rfl
  | succ n ih =>
    rw [blockLoop, ih (blockStep s)]
    rfl

/-- UNPAD writes OUT and OUT_LEN, and nothing else (R150). -/
theorem unpad_frame (s : State) : unpad s = { s with outMem := (unpad s).outMem, outLen := (unpad s).outLen } := by
  unfold unpad
  split <;> rfl

/-- The block loop with the zero fill before it, or the free bytes of a DECRYPT with no key: OUT, OUT_LEN, the working
registers and the count of free values. -/
theorem decryptBlocks_frame (s : State) :
    decryptBlocks s = { s with
      outMem := (decryptBlocks s).outMem, outLen := s.inLen
      work := (decryptBlocks s).work, draws := (decryptBlocks s).draws } := by
  unfold decryptBlocks
  split
  · rfl
  · rw [blockLoop_frame]
    rfl

/-- The same with STRIP (R145). -/
theorem stripIf_frame (strip : Bool) (s : State) :
    stripIf strip s = { s with outMem := (stripIf strip s).outMem, outLen := (stripIf strip s).outLen } := by
  cases strip
  · rfl
  · exact unpad_frame s

end Sys2Proof.Machine
end

