-- ==== Sys2Proof/Laws/Commands.lean ====
section
/-! SUPPORT. What each meaning and each step can do, said once; and the block loop in closed form. -/

namespace Sys2Proof.Machine

/-- Everything an EXPANDKEY that goes on can do (R110). -/
theorem execExpandkey_next {s t : State} (h : execExpandkey s = .next t) :
    s.destroyed = false ∧
      ((keyLengthValid s.keylen = false ∧ t = { s with err := errInvalidKeySize }) ∨
       (keyLengthValid s.keylen = true ∧ sameKey s.key (keyOperand s) = true ∧ t = { s with err := 0 }) ∨
       (keyLengthValid s.keylen = true ∧ sameKey s.key (keyOperand s) = false ∧
         t = { expandKey (keyOperand s) s with err := 0 })) := by
  unfold execExpandkey at h
  split at h
  · cases h
  · rename_i hd
    refine ⟨by simpa using hd, ?_⟩
    split at h
    · rename_i hk
      exact .inl ⟨by simpa using hk, by cases h; rfl⟩
    · rename_i hk
      split at h
      · rename_i hs
        exact .inr (.inl ⟨by simpa using hk, hs, by cases h; rfl⟩)
      · rename_i hs
        exact .inr (.inr ⟨by simpa using hk, by simpa using hs, by cases h; rfl⟩)

/-- Everything a DECRYPT that goes on can do (R130). -/
theorem execDecrypt_next {strip : Bool} {s t : State} (h : execDecrypt strip s = .next t) :
    s.destroyed = false ∧ bufferContract s = true ∧
      t = { releaseWork (stripIf strip (decryptBlocks s)) with err := 0 } := by
  unfold execDecrypt at h
  split at h
  · cases h
  · rename_i hd
    split at h
    · cases h
    · rename_i hb
      exact ⟨by simpa using hd, by simpa using hb, by cases h; rfl⟩

/-- What a DECRYPT writes, whatever its form: OUT, OUT_LEN, the working registers, ERR and the count of free values. -/
theorem execDecrypt_frame {strip : Bool} {s t : State} (h : execDecrypt strip s = .next t) :
    t = { s with outMem := t.outMem, outLen := t.outLen, work := t.work, draws := t.draws, err := 0 } := by
  obtain ⟨-, -, rfl⟩ := execDecrypt_next h
  rw [stripIf_frame, decryptBlocks_frame]
  rfl

/-- Everything DESTROY does (R160). -/
theorem execDestroy_next {s t : State} (h : execDestroy s = .next t) :
    t = { s with
      tables := clearTables s.tables, key := clearKey, work := clearWork s.work, outMem := [], outLen := 0,
      tablesReady := false, keyLoaded := false, destroyed := true, err := 0 } := by
  cases h
  rfl

/-- Everything a step that goes on can do: a command, an illegal command, the host's next access, or idleness. -/
theorem step_next {s t : State} (h : step s = .next t) :
    (∃ b i, s.cmd = some b ∧ decodeCmd b = .ok i ∧ exec i { s with cmd := none } = .next t) ∨
    (∃ b e, s.cmd = some b ∧ decodeCmd b = .error e ∧ t = { s with cmd := none, err := errIllegalCommand }) ∨
    (∃ x xs, s.cmd = none ∧ s.host = x :: xs ∧ hostAccess x { s with host := xs } = .next t) ∨
    (s.cmd = none ∧ s.host = [] ∧ t = s) := by
  unfold step State.takeCmd at h
  cases hc : s.cmd with
  | some b =>
    simp only [hc, Option.map_some, runCommand] at h
    cases hd : decodeCmd b with
    | ok i => exact .inl ⟨b, i, rfl, hd, by simpa only [hd] using h⟩
    | error e =>
      simp only [hd] at h
      exact .inr (.inl ⟨b, e, rfl, hd, by cases h; rfl⟩)
  | none =>
    simp only [hc, Option.map_none, hostTurn] at h
    cases hh : s.host with
    | nil =>
      simp only [hh] at h
      exact .inr (.inr (.inr ⟨rfl, rfl, by cases h; rfl⟩))
    | cons x xs => exact .inr (.inr (.inl ⟨x, xs, rfl, rfl, by simpa only [hh] using h⟩))

/-- The address of the block loop after `n` blocks. -/
theorem blockLoop_off (n : Nat) (s : State) : (blockLoop n s).work.off = s.work.off + 16 * n := by
  induction n generalizing s with
  | zero => rfl
  | succ n ih =>
    rw [blockLoop, ih, blockStep_work_off]
    omega

/-- The chain value of block `i` of a loop: V at its start for the first, the ciphertext block before it for the rest
(R139). -/
def chainOf (s : State) (i : Nat) : Quad :=
  if i = 0 then s.work.v else readBlock s.inMem (s.work.off + 16 * (i - 1))

/-- The plaintext block `i` of a loop (R141): the inverse cipher of the block, XORed with the chain value. -/
def plainOf (s : State) (i : Nat) : Quad :=
  (cipherBlock s.tables s.key (readBlock s.inMem (s.work.off + 16 * i))).xor (chainOf s i)

/-- One block consumed: block `i` of what is left is block `i + 1` of the whole. -/
theorem plainOf_blockStep (s : State) (i : Nat) : plainOf (blockStep s) i = plainOf s (i + 1) := by
  have ha : s.work.off + 16 + 16 * i = s.work.off + 16 * (i + 1) := by omega
  have hc : chainOf (blockStep s) i = chainOf s (i + 1) := by
    unfold chainOf
    cases i with
    | zero => simp
    | succ i =>
      simp only [Nat.add_eq_zero_iff, Nat.one_ne_zero, and_false, if_false, blockStep_inMem, blockStep_work_off,
        Nat.add_sub_cancel]
      congr 1
      omega
  simp only [plainOf, hc, blockStep_tables, blockStep_key, blockStep_inMem, blockStep_work_off, ha]

theorem wf_blockStep {s : State} (h : s.outMem.wf) : (blockStep s).outMem.wf := by
  rw [blockStep_outMem]
  exact wf_writeBlock h _ _

theorem wf_blockLoop {s : State} (h : s.outMem.wf) (n : Nat) : (blockLoop n s).outMem.wf := by
  induction n generalizing s with
  | zero => exact h
  | succ n ih => exact ih (wf_blockStep h)

/-- The block loop in closed form (R140, R141): byte `j` of plaintext block `i` stands at OFF + 16 i + j, and every other
byte of OUT is as it was. -/
theorem read_blockLoop {s : State} (h : s.outMem.wf) (n a : Nat) :
    (blockLoop n s).outMem.read a =
      if s.work.off ≤ a ∧ a < s.work.off + 16 * n
      then (plainOf s ((a - s.work.off) / 16)).bytes.getD ((a - s.work.off) % 16) 0
      else s.outMem.read a := by
  induction n generalizing s with
  | zero =>
    rw [if_neg (by omega)]
    rfl
  | succ n ih =>
    rw [blockLoop, ih (wf_blockStep h), blockStep_work_off]
    by_cases h1 : s.work.off + 16 ≤ a ∧ a < s.work.off + 16 + 16 * n
    · rw [if_pos h1, if_pos (by omega), plainOf_blockStep,
        show (a - s.work.off) / 16 = (a - (s.work.off + 16)) / 16 + 1 by omega,
        show (a - s.work.off) % 16 = (a - (s.work.off + 16)) % 16 by omega]
    · rw [if_neg h1, blockStep_outMem, read_writeBlock h]
      by_cases h2 : s.work.off ≤ a ∧ a < s.work.off + 16
      · rw [if_pos h2, if_pos (by omega), show (a - s.work.off) / 16 = 0 by omega,
          show (a - s.work.off) % 16 = a - s.work.off by omega]
        simp [plainOf, chainOf]
      · rw [if_neg h2, if_neg (by omega)]

/-- The rows a schedule loop adds leave the rows before them alone. -/
theorem scheduleLoop_prefix (tb : Tables) (nk n : Nat) (ks : List Word) :
    ∃ rest, scheduleLoop tb nk n ks = ks ++ rest ∧ rest.length = n := by
  induction n generalizing ks with
  | zero => exact ⟨[], by simp [scheduleLoop]⟩
  | succ n ih =>
    obtain ⟨rest, h, hl⟩ := ih (ks ++ [scheduleRow tb nk ks.length ks])
    exact ⟨scheduleRow tb nk ks.length ks :: rest, by simp [scheduleLoop, h], by simp [hl]⟩

@[simp] theorem length_scheduleLoop (tb : Tables) (nk n : Nat) (ks : List Word) :
    (scheduleLoop tb nk n ks).length = ks.length + n := by
  obtain ⟨rest, h, hl⟩ := scheduleLoop_prefix tb nk n ks
  simp [h, hl]

/-- A schedule has 4 * (Nk + 7) rows (R114). -/
@[simp] theorem length_schedule (tb : Tables) (key : List Word) : (schedule tb key).length = scheduleRows key.length := by
  simp only [schedule, length_scheduleLoop, scheduleRows]
  omega

@[simp] theorem length_invSchedule (tb : Tables) (ks : List Word) : (invSchedule tb ks).length = ks.length := by
  simp [invSchedule]

/-- The words written stand first in the cells. -/
theorem overwrite_take {n : Nat} (cells : Vector Word n) (ws : List Word) (h : ws.length ≤ n) :
    (overwrite cells ws).toList.take ws.length = ws := by
  have : (overwrite cells ws).toList = (ws ++ cells.toList.drop ws.length).take n := rfl
  rw [this, List.take_take, Nat.min_eq_left h, List.take_left']
  rfl

/-- A full expansion leaves the key as KEY, and both schedules derived from it, whatever the cells held before (R27,
R114). -/
theorem expandedKey_derived (tb : Tables) (k : KeyState) {key : List Word}
    (h : key.length = 4 ∨ key.length = 6 ∨ key.length = 8) :
    (expandedKey tb k key).words = key ∧ (expandedKey tb k key).derived tb := by
  have rows : scheduleRows key.length ≤ Config.scheduleCapacity := by
    rcases h with h | h | h <;> rw [h] <;> decide
  have hw : (expandedKey tb k key).words = key :=
    overwrite_take k.keyCells key (by rcases h with h | h | h <;> rw [h] <;> decide)
  have hk : (expandedKey tb k key).ks = schedule tb key := by
    have := overwrite_take k.ksCells (schedule tb key) (by rw [length_schedule]; exact rows)
    rwa [length_schedule] at this
  have hi : (expandedKey tb k key).invks = invSchedule tb (schedule tb key) := by
    have := overwrite_take k.invksCells (invSchedule tb (schedule tb key))
      (by rw [length_invSchedule, length_schedule]; exact rows)
    rwa [length_invSchedule, length_schedule] at this
  exact ⟨hw, .inr ⟨h, rfl, by rw [hw, hk], by rw [hi, hk]⟩⟩

end Sys2Proof.Machine
end

