-- ==== Sys2Proof/Laws/Gf.lean ====
section
/-! SUPPORT. The field arithmetic and the tables: what a lookup in a table of INIT gives, and that the printed S-boxes are
the ones the rules define. -/

namespace Sys2Proof.Machine

/-- The printed SBOX is the one R95 defines (R93, R94). -/
theorem sboxByte_eq_affine_ginv : ∀ x : Byte, sboxByte x = affine (ginv x) := by decide +kernel

/-- INVSBOX undoes SBOX (R96). -/
theorem invSboxByte_sboxByte : ∀ x : Byte, invSboxByte (sboxByte x) = x := by decide +kernel

/-- SBOX undoes INVSBOX (R21). -/
theorem sboxByte_invSboxByte : ∀ x : Byte, sboxByte (invSboxByte x) = x := by decide +kernel

/-- A lookup in a table gives the function the table was made from. -/
@[simp] theorem lookup_tabulate (f : Byte → Word) (b : Byte) : lookup (tabulate f) b = f b := by
  have h : 16 * (b.toNat / 16) + b.toNat % 16 = b.toNat := Nat.div_add_mod _ _
  simp only [lookup, tabulate, Vector.getElem_mk, List.getElem_toArray, List.getElem_map, List.getElem_range, h,
    BitVec.ofNat_toNat, BitVec.setWidth_eq]

@[simp] theorem lookup_init_sbox (b : Byte) : lookup initTables.sbox b = zext32 (sboxByte b) := by
  rw [show initTables.sbox = tabulate (fun x => zext32 (sboxByte x)) from rfl, lookup_tabulate]

@[simp] theorem lookup_init_invSbox (b : Byte) : lookup initTables.invSbox b = zext32 (invSboxByte b) := by
  rw [show initTables.invSbox = tabulate (fun x => zext32 (invSboxByte x)) from rfl, lookup_tabulate]

@[simp] theorem lookup_init_subMix_k0 (b : Byte) : lookup initTables.subMix.k0 b = subMixWord b := by
  rw [show initTables.subMix.k0 = tabulate subMixWord from rfl, lookup_tabulate]

@[simp] theorem lookup_init_subMix_k1 (b : Byte) : lookup initTables.subMix.k1 b = (subMixWord b).rotateRight 8 := by
  rw [show initTables.subMix.k1 = tabulate (fun x => (subMixWord x).rotateRight 8) from rfl, lookup_tabulate]

@[simp] theorem lookup_init_subMix_k2 (b : Byte) : lookup initTables.subMix.k2 b = (subMixWord b).rotateRight 16 := by
  rw [show initTables.subMix.k2 = tabulate (fun x => (subMixWord x).rotateRight 16) from rfl, lookup_tabulate]

@[simp] theorem lookup_init_subMix_k3 (b : Byte) : lookup initTables.subMix.k3 b = (subMixWord b).rotateRight 24 := by
  rw [show initTables.subMix.k3 = tabulate (fun x => (subMixWord x).rotateRight 24) from rfl, lookup_tabulate]

@[simp] theorem lookup_init_invSubMix_k0 (b : Byte) : lookup initTables.invSubMix.k0 b = invSubMixWord b := by
  rw [show initTables.invSubMix.k0 = tabulate invSubMixWord from rfl, lookup_tabulate]

@[simp] theorem lookup_init_invSubMix_k1 (b : Byte) : lookup initTables.invSubMix.k1 b = (invSubMixWord b).rotateRight 8 := by
  rw [show initTables.invSubMix.k1 = tabulate (fun x => (invSubMixWord x).rotateRight 8) from rfl, lookup_tabulate]

@[simp] theorem lookup_init_invSubMix_k2 (b : Byte) : lookup initTables.invSubMix.k2 b = (invSubMixWord b).rotateRight 16 := by
  rw [show initTables.invSubMix.k2 = tabulate (fun x => (invSubMixWord x).rotateRight 16) from rfl, lookup_tabulate]

@[simp] theorem lookup_init_invSubMix_k3 (b : Byte) : lookup initTables.invSubMix.k3 b = (invSubMixWord b).rotateRight 24 := by
  rw [show initTables.invSubMix.k3 = tabulate (fun x => (invSubMixWord x).rotateRight 24) from rfl, lookup_tabulate]

/-- Widening a byte and cutting it back gives the byte. -/
@[simp] theorem setWidth_zext32 (b : Byte) : (zext32 b).setWidth 8 = b := by
  simp [zext32]

/-- Doubling is linear (R91). -/
theorem double_xor (x y : Byte) : double (x ^^^ y) = double x ^^^ double y := by
  have form : ∀ z : Byte, double z = (z <<< 1) ^^^ (if z.getLsbD 7 then 0x1b else 0) := by decide
  have swap : ∀ a b c d : Byte, (a ^^^ b) ^^^ (c ^^^ d) = (a ^^^ c) ^^^ (b ^^^ d) := fun a b c d => by ac_rfl
  rw [form, form, form, swap, BitVec.getLsbD_xor, BitVec.shiftLeft_xor_distrib]
  congr 1
  cases x.getLsbD 7 <;> cases y.getLsbD 7 <;> rfl

/-- Multiplication is linear in its first operand (R92). -/
theorem gmulLoop_xor (n : Nat) (r r' a a' b : Byte) :
    gmulLoop n (r ^^^ r') (a ^^^ a') b = gmulLoop n r a b ^^^ gmulLoop n r' a' b := by
  induction n generalizing r r' a a' b with
  | zero => rfl
  | succ n ih =>
    have swap : ∀ a b c d : Byte, (a ^^^ b) ^^^ (c ^^^ d) = (a ^^^ c) ^^^ (b ^^^ d) := fun a b c d => by ac_rfl
    simp only [gmulLoop, double_xor]
    split
    · rw [swap, ih]
    · exact ih _ _ _ _ _

end Sys2Proof.Machine
end

