-- ==== Sys2Proof/Laws/PerInstr.lean ====
section
/-! SUPPORT. Statements for all instructions, one lemma per constructor. -/

/-- The fields an instruction stands for pass every check of R71 and R75, whatever its operand. -/
def Sys2Proof.Laws.FieldsWellFormed.Statement (i : Sys2Proof.Instr) : Prop := i.wellFormed = true

theorem Sys2Proof.Laws.FieldsWellFormed.expandkey :
    Sys2Proof.Laws.FieldsWellFormed.Statement .expandkey := by
  show _ = _
  decide

theorem Sys2Proof.Laws.FieldsWellFormed.decrypt (strip : Bool) :
    Sys2Proof.Laws.FieldsWellFormed.Statement (.decrypt strip) := by
  show _ = _
  cases strip <;> decide

theorem Sys2Proof.Laws.FieldsWellFormed.destroy :
    Sys2Proof.Laws.FieldsWellFormed.Statement .destroy := by
  show _ = _
  decide
end

