-- ==== Sys2Proof/Laws/Runs.lean ====
section
/-! SUPPORT. Runs: what a run is step by step, and a run through accesses of the host. -/

namespace Sys2Proof.Machine

/-- A run whose first step goes on runs on from there. -/
theorem run_succ_of_next {s t : State} (n : Nat) (h : step s = .next t) :
    Host.Core.run Sys2Proof.core (n + 1) s = Host.Core.run Sys2Proof.core n t := by
  have h' : Sys2Proof.core.step s = .next t := h
  simp only [Host.Core.run, h']

/-- A run of one step is the step. -/
theorem run_one (s : State) : Host.Core.run Sys2Proof.core 1 s = step s := by
  have h' : Sys2Proof.core.step s = step s := rfl
  simp only [Host.Core.run, h']
  cases step s <;> rfl

/-- With no command waiting, a step takes the host's first access (R60). -/
theorem step_of_host {s : State} {x : HostAction} {xs : List HostAction} (hc : s.cmd = none) (hh : s.host = x :: xs) :
    step s = hostAccess x { s with host := xs } := by
  simp [step, State.takeCmd, hc, hostTurn, hh]

/-- A run through accesses that each change the state by `f`, none of them a write of CMD, is the fold of `f`. -/
theorem run_accesses (f : HostAction → State → State) (xs rest : List HostAction) (n : Nat) (s : State)
    (hf : ∀ x ∈ xs, ∀ u : State, u.cmd = none → hostAccess x u = .next (f x u) ∧ (f x u).cmd = none ∧ (f x u).host = u.host)
    (hc : s.cmd = none) (hh : s.host = xs ++ rest) :
    Host.Core.run Sys2Proof.core (xs.length + n) s =
      Host.Core.run Sys2Proof.core n (xs.foldl (fun u x => f x { u with host := u.host.tail }) s) := by
  induction xs generalizing s with
  | nil => rw [List.length_nil, Nat.zero_add]; rfl
  | cons x xs ih =>
    obtain ⟨h1, h2, h3⟩ := hf x List.mem_cons_self { s with host := s.host.tail } hc
    have hs : step s = .next (f x { s with host := s.host.tail }) := by
      rw [step_of_host hc hh, ← h1, hh]; rfl
    rw [List.length_cons, Nat.add_right_comm, run_succ_of_next _ hs]
    exact ih _ (fun y hy => hf y (List.mem_cons_of_mem _ hy)) h2 (by rw [h3, hh]; rfl)

end Sys2Proof.Machine
end

