-- ==== Sys2Proof/Tests/Slice0.lean ====
section
/-! SUPPORT. The model's own tests, each against a value the spec prints (the source stands in its comment), and a witness
for the hypotheses of every statement that has any. -/

namespace Sys2Proof.Machine.Tests

/-! ### Small states -/

/-- The `n` bytes of a number, first byte most significant. -/
def bytesOf (n v : Nat) : List Byte := (List.range n).map fun i => BitVec.ofNat 8 (v >>> (8 * (n - 1 - i)))

def vectorOf (n v : Nat) : Vector Byte n := ⟨⟨bytesOf n v⟩, by simp [bytesOf]⟩

/-- Reset, then the operands of `EXPANDKEY 000102..0f` and of a DECRYPT of `len` bytes of `input` at `offset`. -/
def ready (len input offset iv : Nat) : State :=
  { State.reset with
    keylen := 16, keyin := vectorOf 32 (0x000102030405060708090a0b0c0d0e0f <<< 128)
    inLen := len, inMem := Memory.writeBytes [] 0 (bytesOf len input), offset := offset, ivin := vectorOf 16 iv }

/-- The same with the key 000102..0f loaded. -/
def keyed (len input offset iv : Nat) : State :=
  expandKey (keyOperand (ready len input offset iv)) (ready len input offset iv)

/-- One block, the FIPS 197 C.1 ciphertext, zero IV (vector D1). -/
def demo : State := keyed 16 0x69c4e0d86a7b0430d8cdb78070b4c55a 0 0

/-- `demo` destroyed. -/
def gone : State := match execDestroy demo with
  | .next t => t
  | _ => demo

/-- The word that a result leaves in a field, if it goes on. -/
def after {α : Type} (f : State → α) : Result → Option α
  | .next t => some (f t)
  | _ => none

/-! ### WellFormed: a term that each check refuses -/

theorem test_wellFormed_refuses_reserved_bits :
    (CmdFields.mk 1 false 1).rsvZero = false ∧ (CmdFields.mk 1 false 1).wellFormed = false := by decide

theorem test_wellFormed_refuses_reserved_op :
    (CmdFields.mk 0 false 0).opUsed = false ∧ (CmdFields.mk 0 false 0).wellFormed = false := by decide

theorem test_wellFormed_refuses_strip_with_destroy :
    (CmdFields.mk 0 true 3).stripAllowed = false ∧ (CmdFields.mk 0 true 3).wellFormed = false := by decide

theorem test_wellFormed_refuses_host_accesses :
    HostAction.wellFormed (.writeReg 1 0) = false ∧ HostAction.wellFormed (.readReg 0) = false ∧
    HostAction.wellFormed (.writeKeyin 32 0) = false ∧ HostAction.wellFormed (.writeIvin 16 0) = false := by decide

/-! ### Decode: the words of R71 and R72, and the illegal values of R75 -/

theorem test_decode_expandkey : decodeCmd 0b00000001 = .ok .expandkey := by decide
theorem test_decode_decrypt : decodeCmd 0b00000010 = .ok (.decrypt false) := by decide
theorem test_decode_decrypt_strip : decodeCmd 0b00000110 = .ok (.decrypt true) := by decide
theorem test_decode_destroy : decodeCmd 0b00000011 = .ok .destroy := by decide

theorem test_decode_rejects_by_name :
    decodeCmd 0x00 = .error .reservedOp ∧ decodeCmd 0x04 = .error .reservedOp ∧
    decodeCmd 0x05 = .error .stripNotAllowed ∧ decodeCmd 0x07 = .error .stripNotAllowed ∧
    decodeCmd 0x82 = .error .reservedBits ∧ decode [] = .error .noByte := ⟨rfl, rfl, rfl, rfl, rfl, rfl⟩

/-! ### Tables (vectors T1 to T14) -/

/-- T1, FIPS 197 section 4.2. -/
theorem test_gmul : gmul 0x57 0x83 = 0xc1 ∧ gmul 0x57 0x13 = 0xfe := by decide

/-- T6, T9, T10, T13: entry 0x53 of four tables. -/
theorem test_mix_entries :
    lookup initTables.subMix.k0 0x53 = 0xc1eded2c ∧ lookup initTables.subMix.k3 0x53 = 0xeded2cc1 ∧
    lookup initTables.invSubMix.k0 0x53 = 0x4de6bd46 ∧ lookup initTables.invSubMix.k1 0xff = 0x42d0b857 := by
  decide +kernel

/-! ### EXPANDKEY -/

/-- R110: KEYSIZE, KSROWS, KS[43], INVKS[4], INVKS[43] and STATUS after the key 000102..0f. -/
theorem test_expandkey :
    after (fun t => (t.key.keySize, t.key.ksRows, t.key.ks.getD 43 0, t.key.invks.getD 4 0, t.key.invks.getD 43 0, t.status))
      (execExpandkey (ready 0 0 0 0)) = some (4, 44, 0x4d2b30c5, 0x13aa29be, 0x04050607, 0x03) := by decide +kernel

/-- Vectors K15, K16: KS[10] of the 24-byte key and KS[12] of the 32-byte key 000102... -/
theorem test_longer_keys :
    (schedule initTables ((List.range 6).map (be32 (bytesOf 24 0x000102030405060708090a0b0c0d0e0f1011121314151617)))).getD 10 0
      = 0x4856e2e9 ∧
    (schedule initTables ((List.range 8).map (be32
      (bytesOf 32 0x000102030405060708090a0b0c0d0e0f101112131415161718191a1b1c1d1e1f)))).getD 12 0 = 0x1651a8cd := by
  decide +kernel

/-! ### DECRYPT -/

/-- Vector D1, issued through CMD. -/
theorem test_decrypt :
    after (fun t => (t.outMem.readBytes 0 16, t.outLen, t.status)) (step (demo.withFetchWord 8 0x02)) =
      some (bytesOf 16 0x00112233445566778899aabbccddeeff, 16, 0x03) := by decide +kernel

/-- PRG1 step 4: DECRYPT.S of the second block of S1 alone, at OFFSET 16 with the first block as IV. -/
theorem test_decrypt_strip :
    after (fun t => (t.outMem, t.outLen)) (step ((keyed 32
      0x149c507607c8876a51ed54de320ca3b320c29ee02556a3cb7e0f20f0e7d53f22 16
      0x149c507607c8876a51ed54de320ca3b3).withFetchWord 8 0x06)) = some ([], 16) := by decide +kernel

/-- Vectors P1, P4, P5, P7, P8, P9. -/
theorem test_stripped_lengths :
    strippedLength 16 1 = 15 ∧ strippedLength 16 16 = 0 ∧ strippedLength 3 0 = 3 ∧ strippedLength 21 20 = 1 ∧
    strippedLength 1 3 = 0 ∧ strippedLength 3 255 = 0 := by decide

/-! ### DESTROY -/

/-- R160, vector L2. -/
theorem test_destroy :
    after (fun t => (t.status, t.key.keySize, t.key.ksRows, lookup t.tables.sbox 0, lookup t.tables.invSubMix.k0 0))
      (step (demo.withFetchWord 8 0x03)) = some (0x04, 0, 0, 0, 0) := by decide +kernel

/-- Vectors E1, E6 and L5. -/
theorem test_illegal_and_reset :
    after State.status (runCommand 0x00 State.reset) = some 0x21 ∧
    after State.status (runCommand 0x07 gone) = some 0x24 ∧
    after State.status (hostAccess .reset gone) = some 0x01 := by decide +kernel

/-! ### Witnesses -/

/-- Four words of key. -/
theorem ready_keyOperand_length (len input offset iv : Nat) : (keyOperand (ready len input offset iv)).length = 4 := by
  simp [keyOperand, ready]

/-- A state with any operands and the key loaded satisfies the invariant. -/
theorem keyed_inv (len input offset iv : Nat) : (keyed len input offset iv).Inv where
  lifecycle := rfl
  keyLoaded := ⟨fun _ h => absurd ((ready_keyOperand_length len input offset iv).symm.trans h) (by decide), fun _ => rfl⟩
  derived := (expandedKey_derived initTables KeyState.empty (.inl (ready_keyOperand_length len input offset iv))).2
  tables := fun _ => rfl
  cleared := fun h => Bool.noConfusion (show false = true from h)
  err := .inl rfl
  inForm := Memory.wf_writeBytes Memory.wf_nil _ _
  outForm := Memory.wf_nil
  outBound := fun _ h => absurd h List.not_mem_nil

theorem ready_inv (len input offset iv : Nat) : (ready len input offset iv).Inv where
  lifecycle := rfl
  keyLoaded := ⟨fun h => Bool.noConfusion (show false = true from h), fun h => absurd rfl h⟩
  derived := .inl ⟨rfl, rfl⟩
  tables := fun _ => rfl
  cleared := fun h => Bool.noConfusion (show false = true from h)
  err := .inl rfl
  inForm := Memory.wf_writeBytes Memory.wf_nil _ _
  outForm := Memory.wf_nil
  outBound := fun _ h => absurd h List.not_mem_nil

theorem demo_inv : demo.Inv := keyed_inv _ _ _ _

theorem gone_inv : gone.Inv where
  lifecycle := rfl
  keyLoaded := ⟨fun h => Bool.noConfusion (show false = true from h), fun h => absurd rfl h⟩
  derived := .inl ⟨rfl, rfl⟩
  tables := fun h => Bool.noConfusion (show true = false from h)
  cleared := fun _ => ⟨rfl, rfl, rfl, rfl, rfl⟩
  err := .inl rfl
  inForm := demo_inv.inForm
  outForm := Memory.wf_nil
  outBound := fun _ h => absurd h List.not_mem_nil

theorem witness_StepPerformsTheDecodedCommand :
    ({ demo with cmd := some 0x02 } : State).cmd = some 0x02 ∧ decodeCmd 0x02 = .ok (.decrypt false) ∧
    decodeTableWord 8 0x06 = some (.decrypt true) := ⟨rfl, rfl, rfl⟩

theorem witness_IllegalCommandSetsErrAndNothingElse :
    ({ gone with host := [.writeReg 0 0xff] } : State).cmd = none ∧
    ({ gone with host := [.writeReg 0 0xff] } : State).host = .writeReg 0 0xff :: [] ∧ (0xff : Nat) < 256 ∧
    (0xff : Nat) ≠ 1 ∧ (0xff : Nat) ≠ 2 ∧ (0xff : Nat) ≠ 3 ∧ (0xff : Nat) ≠ 6 := by
  refine ⟨rfl, rfl, ?_⟩
  decide

theorem witness_HostAccessesAndIdleness :
    ({ demo with host := [.reset] } : State).cmd = none ∧ ({ demo with host := [.reset] } : State).host = .reset :: [] ∧
    demo.cmd = none ∧ demo.host = [] := ⟨rfl, rfl, rfl, rfl⟩

theorem witness_HostWritesReachTheirRegisters :
    (255 : Nat) < 256 ∧ demo.inMem.wf ∧ (31 : Nat) < 32 ∧ (15 : Nat) < 16 :=
  ⟨by decide, demo_inv.inForm, by decide, by decide⟩

theorem witness_OperandRegisterWordsAreBigEndian :
    (0xffffffff : Nat) < 2 ^ 32 ∧ (7 : Nat) < 8 ∧ (31 : Nat) < 32 ∧ (3 : Nat) < 4 ∧ (15 : Nat) < 16 := by decide

theorem witness_ReadsHaveNoSideEffect :
    ∃ s : State, 0 < s.outLen ∧ exec (.decrypt false) demo = .next s := ⟨_, by decide, rfl⟩

theorem witness_AccessesTheInterfaceLacksStop :
    hostWritable 20 = false ∧ hostWritable 7 = false ∧ hostReadable 0 = false ∧ (32 : Nat) ≤ 32 ∧
    (16 : Nat) ≤ 16 ∧ State.reset.outLen ≤ 0 := by decide

theorem witness_ExpandkeyLineRunsWithItsOperands :
    ({ demo with host := assemble (.expandkey (bytesOf 33 1)) ++ [.reset] } : State).cmd = none ∧
    ({ demo with host := assemble (.expandkey (bytesOf 33 1)) ++ [.reset] } : State).host =
      assemble (.expandkey (bytesOf 33 1)) ++ [.reset] := ⟨rfl, rfl⟩

theorem witness_DecryptLineRunsWithItsOperands :
    ({ demo with host := assemble (.decrypt (bytesOf 17 1) 1 (vectorOf 16 5) true) ++ [] } : State).cmd = none ∧
    demo.inMem.wf ∧
    ({ demo with host := assemble (.decrypt (bytesOf 17 1) 1 (vectorOf 16 5) true) ++ [] } : State).host =
      assemble (.decrypt (bytesOf 17 1) 1 (vectorOf 16 5) true) ++ [] := ⟨rfl, demo_inv.inForm, rfl⟩

theorem witness_DestroyAndResetLinesRun :
    ({ demo with host := .writeReg 0 (encodeCmd (.decrypt true)).toNat :: [] } : State).cmd = none ∧
    ({ demo with host := .writeReg 0 (encodeCmd (.decrypt true)).toNat :: [] } : State).host =
      .writeReg 0 (encodeCmd (.decrypt true)).toNat :: [] ∧
    ({ demo with host := assemble .destroy ++ [.reset] } : State).host = assemble .destroy ++ [.reset] ∧
    ({ gone with host := assemble .reset ++ [] } : State).host = assemble .reset ++ [] := ⟨rfl, rfl, rfl, rfl⟩

theorem witness_ResetInputReturnsToTheResetState :
    ({ gone with host := [.reset] } : State).cmd = none ∧ ({ gone with host := [.reset] } : State).host = .reset :: [] :=
  ⟨rfl, rfl⟩

theorem witness_FieldInverseIsTheOneInverse : (0x53 : Byte) ≠ 0 := by decide

theorem witness_InvalidKeyLengthFailsAndKeepsEverything :
    ({ demo with keylen := 17 } : State).destroyed = false ∧ ¬ ({ demo with keylen := 17 } : State).validKey :=
  ⟨rfl, by show ¬ ((17 : Nat) = 16 ∨ (17 : Nat) = 24 ∨ (17 : Nat) = 32); decide⟩

/-- The key operand of a keyed state is the loaded key. -/
theorem demo_holdsKey : demo.holdsKey := ⟨rfl, by decide +kernel⟩

theorem witness_SameKeyIsShortCircuited : demo.destroyed = false ∧ demo.validKey ∧ demo.holdsKey :=
  ⟨rfl, .inl rfl, demo_holdsKey⟩

theorem witness_ShortCircuitLeavesWhatRecomputationWould :
    demo.Inv ∧ demo.destroyed = false ∧ demo.validKey ∧ demo.holdsKey :=
  ⟨keyed_inv _ _ _ _, rfl, .inl rfl, demo_holdsKey⟩

theorem witness_NewKeyIsExpanded :
    (ready 0 0 0 0).destroyed = false ∧ (ready 0 0 0 0).validKey ∧ ¬ (ready 0 0 0 0).holdsKey :=
  ⟨rfl, .inl rfl, fun h => absurd h.1 (by decide)⟩

/-- EXPANDKEY goes on from `ready`. -/
theorem ready_expands : ∃ t, exec .expandkey (ready 0 0 0 0) = .next t ∧ t.err = 0 := ⟨_, rfl, rfl⟩

theorem witness_ForwardScheduleFollowsTheRecurrence :
    (ready 0 0 0 0).Inv ∧ (∃ t, exec .expandkey (ready 0 0 0 0) = .next t ∧ t.err = 0) ∧ (0 : Nat) < 16 / 4 ∧
    (16 / 4 : Nat) ≤ 43 ∧ (43 : Nat) < (16 / 4 + 7) * 4 := ⟨ready_inv _ _ _ _, ready_expands, by decide, by decide, by decide⟩

theorem witness_InverseScheduleIsTheReorderedOne :
    (ready 0 0 0 0).Inv ∧ (∃ t, exec .expandkey (ready 0 0 0 0) = .next t ∧ t.err = 0) ∧
    (16 / 4 + 6 : Nat) ≤ 16 / 4 + 6 ∧ (3 : Nat) < 4 := ⟨ready_inv _ _ _ _, ready_expands, by decide, by decide⟩

theorem witness_KeyStateDependsOnTheKeyAlone :
    (ready 0 0 0 0).Inv ∧ demo.Inv ∧ (ready 0 0 0 0).keylen = demo.keylen ∧ (ready 0 0 0 0).keyin = demo.keyin ∧
    (∃ t, exec .expandkey (ready 0 0 0 0) = .next t ∧ t.err = 0) ∧ (∃ t, exec .expandkey demo = .next t ∧ t.err = 0) :=
  ⟨ready_inv _ _ _ _, keyed_inv _ _ _ _, rfl, rfl, ready_expands, by
    cases h : sameKey demo.key (keyOperand demo)
    · exact ⟨_, by show execExpandkey demo = _; unfold execExpandkey; rw [h]; rfl, rfl⟩
    · exact ⟨_, by show execExpandkey demo = _; unfold execExpandkey; rw [h]; rfl, rfl⟩⟩

theorem witness_DecryptOutOfContractIsRefused :
    (keyed 37 0 4 0).destroyed = false ∧ ((keyed 37 0 4 0).inLen - (keyed 37 0 4 0).offset) % 16 ≠ 0 ∧
    (keyed 37 0 38 0).destroyed = false ∧ (keyed 37 0 38 0).offset > (keyed 37 0 38 0).inLen := by
  refine ⟨rfl, ?_, rfl, ?_⟩
  · show (37 - 4) % 16 ≠ 0
    decide
  · show 38 > 37
    decide

theorem demo_inContract : demo.inContract := ⟨by decide, by decide⟩

theorem witness_DecryptCompletesAndWritesOnlyItsOwn : demo.destroyed = false ∧ demo.inContract := ⟨rfl, demo_inContract⟩

/-- D11: two blocks at an offset that is no multiple of 4. -/
theorem witness_OutputIsAsLongAsTheInputAndZeroBelowOffset :
    (keyed 37 0 5 0).destroyed = false ∧ (keyed 37 0 5 0).inContract ∧ 4 < (keyed 37 0 5 0).offset :=
  ⟨rfl, ⟨by decide, by decide⟩, by decide⟩

theorem witness_ZeroBlocksGiveZeroBytesWhateverTheKey :
    (ready 3 0 3 0).destroyed = false ∧ (ready 3 0 3 0).offset = (ready 3 0 3 0).inLen ∧ 2 < (ready 3 0 3 0).inLen :=
  ⟨rfl, rfl, by decide⟩

theorem witness_DecryptIsStandardAesCbc : demo.Inv ∧ demo.key.keySize ≠ 0 ∧ demo.inContract :=
  ⟨keyed_inv _ _ _ _, by decide, demo_inContract⟩

theorem witness_ExpandedKeyDecryptsByTheStandard :
    ∃ t u : State, (ready 0 0 0 0).Inv ∧ exec .expandkey (ready 0 0 0 0) = .next t ∧ t.err = 0 ∧
      u.tables = t.tables ∧ u.key = t.key ∧ u.destroyed = false ∧ u.inContract ∧ u.inLen = 16 ∧ u.offset = 0 :=
  ⟨_, { expandKey (keyOperand (ready 0 0 0 0)) (ready 0 0 0 0) with inLen := 16, err := 0 },
    ready_inv _ _ _ _, rfl, rfl, rfl, rfl, rfl, ⟨by decide, by decide⟩, rfl, rfl⟩

/-- DECRYPT goes on from `demo`. -/
theorem demo_decrypts (strip : Bool) : ∃ t, exec (.decrypt strip) demo = .next t := ⟨_, rfl⟩

theorem witness_DecryptIsAPureFunctionOfItsInputs :
    demo.Inv ∧ ({ demo with expansions := 7, draws := 9 } : State).key.invks = demo.key.invks ∧
    demo.key.keySize ≠ 0 ∧ (∃ t, exec (.decrypt true) demo = .next t) ∧
    (∃ t, exec (.decrypt true) { demo with expansions := 7, draws := 9 } = .next t) :=
  ⟨keyed_inv _ _ _ _, rfl, by decide, demo_decrypts true, _, rfl⟩

theorem witness_EarlierDecryptLeavesNoTrace :
    ∃ t u v, demo.key.keySize ≠ 0 ∧ exec (.decrypt true) demo = .next t ∧
      exec (.decrypt false) (t.withDecryptOperands [] 32 0 (vectorOf 16 1)) = .next u ∧
      exec (.decrypt false) (demo.withDecryptOperands [] 32 0 (vectorOf 16 1)) = .next v :=
  ⟨_, _, _, by decide, rfl, rfl, rfl⟩

theorem witness_IvReachesOnlyTheFirstBlock :
    ∃ t t', demo.key.keySize ≠ 0 ∧ exec (.decrypt false) demo = .next t ∧
      exec (.decrypt false) { demo with ivin := vectorOf 16 1 } = .next t' ∧ demo.offset < demo.inLen ∧
      demo.offset + 16 ≤ 16 ∧ 15 < 16 := ⟨_, _, by decide, rfl, rfl, by decide, by decide, by decide⟩

theorem witness_StripShortensByTheLastByte :
    demo.destroyed = false ∧ demo.inContract ∧ (demo.key.keySize ≠ 0 ∨ demo.offset = demo.inLen) :=
  ⟨rfl, demo_inContract, .inl (by decide)⟩

/-- OUT_LEN and the last byte that DECRYPT leaves. -/
def lastOf (s : State) : Option (Nat × Option Byte) := after (fun t => (t.outLen, t.out (t.outLen - 1))) (execDecrypt false s)

/-- The clauses for an empty buffer and for p = 0: no block, 0 bytes and 3 bytes (R146 b). -/
theorem witness_StripShortensByTheLastByte_zero :
    lastOf (ready 0 0 0 0) = some (0, none) ∧ lastOf (ready 3 0 3 0) = some (3, some 0x00) ∧
    (ready 3 0 3 0).inContract ∧ (ready 3 0 3 0).offset = (ready 3 0 3 0).inLen :=
  ⟨rfl, by decide, ⟨by decide, by decide⟩, rfl⟩

/-- The clause for p = n: the second block of S1 alone, whose plaintext is sixteen bytes 0x10. -/
theorem witness_StripShortensByTheLastByte_whole :
    lastOf (keyed 16 0x20c29ee02556a3cb7e0f20f0e7d53f22 0 0x149c507607c8876a51ed54de320ca3b3) = some (16, some 0x10) := by
  decide +kernel

/-- The clause for p > n: the same with the last bit of the IV flipped (R144), one more than the 16 bytes there are. -/
theorem witness_StripShortensByTheLastByte_overrun :
    lastOf (keyed 16 0x20c29ee02556a3cb7e0f20f0e7d53f22 0 0x149c507607c8876a51ed54de320ca3b2) = some (16, some 0x11) := by
  decide +kernel

theorem witness_NoKeyGivesFreeBytesAndNoError :
    (ready 16 0 0 0).destroyed = false ∧ (ready 16 0 0 0).key.keySize = 0 ∧ (ready 16 0 0 0).inContract ∧
    (ready 16 0 0 0).offset < (ready 16 0 0 0).inLen ∧ 15 < (ready 16 0 0 0).inLen - (ready 16 0 0 0).offset :=
  ⟨rfl, rfl, ⟨by decide, by decide⟩, by decide, by decide⟩

theorem witness_DestroyForgetsKeyAndPlaintext :
    ∃ s s' : State, s'.key ≠ s.key ∧ s' = { s with
      tables := { s'.tables with rcon := s.tables.rcon }, key := s'.key
      work := { s.work with v := s'.work.v, w := s'.work.w, s := s'.work.s, t := s'.work.t }
      outMem := s'.outMem, outLen := s'.outLen, tablesReady := s'.tablesReady, keyLoaded := s'.keyLoaded
      destroyed := s'.destroyed, err := s'.err } :=
  ⟨{ ready 0 0 0 0 with expansions := 1 }, keyed 0 0 0 0, fun h => absurd (congrArg KeyState.keySize h) (by decide), rfl⟩

theorem witness_DestroyedInstanceRefusesKeyAndDecrypt :
    gone.Inv ∧ gone.destroyed = true ∧ (0xff : Byte) ≠ 1 ∧ (0xff : Byte) ≠ 2 ∧ (0xff : Byte) ≠ 3 ∧ (0xff : Byte) ≠ 6 :=
  ⟨gone_inv, rfl, by decide, by decide, by decide, by decide⟩

theorem witness_OnlyResetLeavesTheDestroyedState :
    gone.destroyed = true ∧ step gone = .next gone ∧ (∀ xs, gone.cmd = none → gone.host ≠ .reset :: xs) :=
  ⟨rfl, rfl, fun _ _ h => by cases h⟩

theorem witness_LifecycleMovesAsTheTableSays :
    (ready 0 0 0 0).Inv ∧ demo.Inv ∧ gone.Inv ∧ (ready 0 0 0 0).lifecycle = some .noKey ∧ demo.lifecycle = some .keyed ∧
    gone.lifecycle = some .destroyed ∧ (∃ t, exec .expandkey (ready 0 0 0 0) = .next t ∧ t.err = 0) ∧
    (∃ t, exec .expandkey { ready 0 0 0 0 with keylen := 15 } = .next t ∧ t.err ≠ 0) ∧ (∃ t, exec (.decrypt true) demo = .next t) :=
  ⟨ready_inv _ _ _ _, demo_inv, gone_inv, rfl, rfl, rfl, ready_expands,
    ⟨_, rfl, by decide⟩, demo_decrypts true⟩

theorem witness_EveryOutcomeAndItsCode :
    (∃ t, runCommand 0x02 demo = .next t ∧ t.err = 0) ∧ (∃ t, runCommand 0x01 State.reset = .next t ∧ t.err = 1) ∧
    (∃ t, runCommand 0x04 demo = .next t ∧ t.err = 2) := ⟨⟨_, rfl, rfl⟩, ⟨_, rfl, rfl⟩, ⟨_, rfl, rfl⟩⟩

theorem witness_CommandsNeverWriteTheHostsSide :
    (∃ t, runCommand 0x03 demo = .next t) ∧ (∃ t, runCommand 0x06 demo = .next t) := ⟨⟨_, rfl⟩, ⟨_, rfl⟩⟩

theorem witness_EachStateHasItsOwnWriters :
    (∃ t, exec .destroy demo = .next t) ∧ (∃ t, exec (.decrypt true) demo = .next t) ∧
    (∃ t, exec .expandkey (ready 0 0 0 0) = .next t) := ⟨⟨_, rfl⟩, demo_decrypts true, ⟨_, rfl⟩⟩

theorem witness_WordsOfAByteSpaceAreBigEndian :
    Memory.wf [(1, 0x80), (4, 0x01)] ∧ (3 : Nat) < 4 ∧ (0 < 1 ∨ 1 + 4 ≤ 0) ∧ (5 < 1 ∨ 1 + 4 ≤ 5) := by decide

theorem witness_BytesWrittenToAByteSpaceReadBack :
    Memory.wf [(1, 0x80), (4, 0x01)] ∧ (1 : Nat) < [(0x00 : Byte), 0x7f].length ∧
    (0 < 1 ∨ 1 + [(0x00 : Byte), 0x7f].length ≤ 0) ∧ (3 < 1 ∨ 1 + [(0x00 : Byte), 0x7f].length ≤ 3) := by decide

/-- DESTROY, then an illegal byte, then the reset input, from reset. -/
theorem witness_ReachableStatesSatisfyTheInvariant :
    ∃ s, Host.Core.run Sys2Proof.core 5
      ({ State.reset with host := [.writeReg 0 3, .writeReg 0 0xff, .reset] } : State) = .next s := ⟨_, rfl⟩

theorem witness_StepKeepsTheInvariant : gone.Inv ∧ step gone = .next gone ∧ demo.Inv ∧
    ∃ t, step (demo.withFetchWord 8 0x06) = .next t := ⟨gone_inv, rfl, keyed_inv _ _ _ _, _, rfl⟩

end Sys2Proof.Machine.Tests
end

section
/-! What each step writes and keeps: frames of the commands and of the host's accesses, what the host's writes do, and
that every step keeps the invariant. -/

namespace Sys2Proof.Machine

/-! ### Frames of the commands -/

/-- What an EXPANDKEY writes: the key state, KEY_LOADED, EXPANSIONS and ERR (R38). -/
theorem execExpandkey_frame {s t : State} (h : execExpandkey s = .next t) :
    t = { s with key := t.key, keyLoaded := t.keyLoaded, expansions := t.expansions, err := t.err } := by
  obtain ⟨-, ⟨-, rfl⟩ | ⟨-, -, rfl⟩ | ⟨-, -, rfl⟩⟩ := execExpandkey_next h <;> rfl

/-- What a command writes: the CORE's own state, and nothing of the host's side (R51, R163). -/
theorem exec_frame {i : Instr} {s t : State} (h : exec i s = .next t) :
    t = { s with
      tables := t.tables, key := t.key, work := t.work, outLen := t.outLen, tablesReady := t.tablesReady
      keyLoaded := t.keyLoaded, destroyed := t.destroyed, err := t.err, outMem := t.outMem
      expansions := t.expansions, draws := t.draws } := by
  cases i with
  | expandkey => rw [execExpandkey_frame h]
  | decrypt strip => rw [execDecrypt_frame h]
  | destroy => rw [execDestroy_next h]

/-- Everything a command byte that is performed can do: a command runs, or ERR becomes IllegalCommand (R75). -/
theorem runCommand_next {b : Byte} {s t : State} (h : runCommand b s = .next t) :
    (∃ i, decodeCmd b = .ok i ∧ exec i s = .next t) ∨
      (∃ e, decodeCmd b = .error e ∧ t = { s with err := errIllegalCommand }) := by
  unfold runCommand at h
  cases hd : decodeCmd b with
  | ok i => exact .inl ⟨i, rfl, by simpa only [hd] using h⟩
  | error e =>
    simp only [hd] at h
    exact .inr ⟨e, rfl, by cases h; rfl⟩

/-! ### Frames of the host's accesses -/

/-- What a host write of an interface register writes: CMD and the host-written registers (R33). -/
theorem writeRegister_frame {n v : Nat} {s t : State} (h : writeRegister n v s = .next t) :
    t = { s with
      cmd := t.cmd, keylen := t.keylen, offset := t.offset, inLen := t.inLen, keyin := t.keyin, ivin := t.ivin } := by
  unfold writeRegister at h
  split_ifs at h <;> cases h <;> rfl

/-- What a host access writes: everything where it is the reset input (R190), one byte of IN where it is a write of IN
(R51), else at most CMD and the host-written registers (R33); a read writes none of them. -/
theorem hostAccess_frame {x : HostAction} {s t : State} (h : hostAccess x s = .next t) :
    (x = .reset ∧ t = resetCore s) ∨
    (t = { s with
      cmd := t.cmd, keylen := t.keylen, offset := t.offset, inLen := t.inLen, keyin := t.keyin, ivin := t.ivin }) ∨
    (∃ a b, x = .writeIn a b ∧ t = { s with inMem := s.inMem.write a b }) := by
  cases x with
  | reset => exact .inl ⟨rfl, by cases h; rfl⟩
  | writeReg n v => exact .inr (.inl (writeRegister_frame h))
  | writeIn a b => exact .inr (.inr ⟨a, b, rfl, by cases h; rfl⟩)
  | readReg _ | writeKeyin _ _ | writeIvin _ _ | readOut _ =>
    simp only [hostAccess] at h
    split at h <;> cases h
    exact .inr (.inl rfl)

/-! ### The host's registers and operand spaces -/

/-- A write within a byte operand. -/
theorem setIfInBounds_eq_set {n : Nat} (bytes : Vector Byte n) {a : Nat} (b : Byte) (h : a < n) :
    bytes.setIfInBounds a b = bytes.set a b h := by
  ext i hi
  rw [Vector.getElem_setIfInBounds, Vector.getElem_set]

theorem getD_toList_eq_getElem {n : Nat} (bytes : Vector Byte n) {a : Nat} (h : a < n) :
    bytes.toList.getD a 0 = bytes[a] := by
  simp [h]

/-- The whole of what a word written to a byte operand does: its four bytes stand at 4j to 4j+3, most significant first,
and every other byte is as it was (R33, R55). -/
theorem getD_setWordBytes {n : Nat} (bytes : Vector Byte n) (j : Nat) (w : Word) {a : Nat} (h : a < n) :
    (setWordBytes bytes j w).toList.getD a 0 =
      if a / 4 = j then byteAt w (3 - a % 4) else bytes.toList.getD a 0 := by
  simp only [getD_toList_eq_getElem _ h, setWordBytes, Vector.getElem_setIfInBounds]
  have place : a % 4 = 0 ∨ a % 4 = 1 ∨ a % 4 = 2 ∨ a % 4 = 3 := by omega
  by_cases hj : a / 4 = j
  · rw [if_pos hj]
    rcases place with hr | hr | hr | hr <;> rw [hr]
    · rw [if_neg (by omega), if_neg (by omega), if_neg (by omega), if_pos (by omega)]
    · rw [if_neg (by omega), if_neg (by omega), if_pos (by omega)]
    · rw [if_neg (by omega), if_pos (by omega)]
    · rw [if_pos (by omega)]
  · rw [if_neg hj, if_neg (by omega), if_neg (by omega), if_neg (by omega), if_neg (by omega)]

/-- A host write of one of the registers 8 to 15 (R33). -/
theorem writeRegister_keyin {j : Nat} (hj : j < 8) (v : Nat) (s : State) :
    writeRegister (8 + j) v s = .next { s with keyin := setWordBytes s.keyin j (BitVec.ofNat 32 v) } := by
  unfold writeRegister
  rw [if_neg (by omega), if_neg (by omega), if_neg (by omega), if_neg (by omega), if_pos (by omega),
    Nat.add_sub_cancel_left]

/-- A host write of one of the registers 16 to 19 (R33). -/
theorem writeRegister_ivin {j : Nat} (hj : j < 4) (v : Nat) (s : State) :
    writeRegister (16 + j) v s = .next { s with ivin := setWordBytes s.ivin j (BitVec.ofNat 32 v) } := by
  unfold writeRegister
  rw [if_neg (by omega), if_neg (by omega), if_neg (by omega), if_neg (by omega), if_neg (by omega),
    if_pos (by omega), Nat.add_sub_cancel_left]

/-- A register number that no host may write (R33, U13). -/
theorem writeRegister_refused {n : Nat} (h : hostWritable n = false) (v : Nat) (s : State) :
    writeRegister n v s = .refused (.registerAccess n) := by
  simp only [hostWritable, Bool.or_eq_false_iff, beq_eq_false_iff_ne, Bool.and_eq_false_iff,
    decide_eq_false_iff_not] at h
  obtain ⟨⟨⟨⟨h0, h2⟩, h3⟩, h4⟩, hw⟩ := h
  unfold writeRegister
  rw [if_neg h0, if_neg h2, if_neg h3, if_neg h4, if_neg (by omega), if_neg (by omega)]

/-- A register number that no host may read (R33, U13). -/
theorem readRegister_none {n : Nat} (h : hostReadable n = false) (s : State) : readRegister n s = none := by
  simp only [hostReadable, Bool.or_eq_false_iff, beq_eq_false_iff_ne] at h
  obtain ⟨h1, h5⟩ := h
  unfold readRegister
  rw [if_neg h1, if_neg h5]

/-- OUT has no byte at or above OUT_LEN (R50). -/
theorem readOut_none {a : Nat} {s : State} (h : s.outLen ≤ a) : readOut a s = none :=
  if_neg (Nat.not_lt.mpr h)

/-! ### STATUS -/

/-- STATUS bit by bit: the three flags, a zero, and ERR from bit 4 on (R33). -/
theorem getLsbD_status (s : State) (i : Nat) :
    s.status.getLsbD i =
      if i = 0 then s.tablesReady else if i = 1 then s.keyLoaded else if i = 2 then s.destroyed
      else if i = 3 then false else s.err.getLsbD (i - 4) := by
  unfold State.status
  rw [BitVec.getLsbD_append, BitVec.getLsbD_append, BitVec.getLsbD_append, BitVec.getLsbD_append]
  match i with
  | 0 | 1 | 2 | 3 => simp
  | i + 4 => simp

/-! ### OUT after a DECRYPT -/

/-- Blocks that end below a bound leave OUT below it. -/
theorem outBound_blockLoop {s : State} {n : Nat} (k : Nat) (h : ∀ c ∈ s.outMem, c.1 < n)
    (hk : s.work.off + 16 * k ≤ n) : ∀ c ∈ (blockLoop k s).outMem, c.1 < n := by
  induction k generalizing s with
  | zero => exact h
  | succ k ih =>
    refine ih ?_ (by rw [blockStep_work_off]; omega)
    rw [blockStep_outMem, writeBlock_eq]
    exact Memory.writeBytes_bound h _ _ (show s.work.off + 16 ≤ n by omega)

theorem wf_decryptBlocks (s : State) : (decryptBlocks s).outMem.wf := by
  unfold decryptBlocks
  split
  · exact Memory.wf_writeBytes Memory.wf_nil _ _
  · exact wf_blockLoop (s := startDecrypt s) Memory.wf_nil _

theorem bufferContract_iff (s : State) : bufferContract s = true ↔ s.inContract := by
  simp [bufferContract, State.inContract]

/-- The blocks of a buffer in contract end within it (R56, R140). -/
theorem offset_add_blockCount_le {s : State} (h : bufferContract s = true) :
    s.offset + 16 * blockCount s ≤ s.inLen := by
  obtain ⟨hle, -⟩ := (bufferContract_iff s).mp h
  unfold blockCount
  omega

theorem outBound_decryptBlocks {s : State} (h : bufferContract s = true) :
    ∀ c ∈ (decryptBlocks s).outMem, c.1 < s.inLen := by
  have hend := offset_add_blockCount_le h
  unfold decryptBlocks
  split
  · refine Memory.writeBytes_bound (by simp) _ _ ?_
    simp only [freeBytes, startDecrypt_offset, startDecrypt_inLen, List.length_map, List.length_range]
    omega
  · exact outBound_blockLoop _ (by simp) hend

theorem decryptBlocks_outLen (s : State) : (decryptBlocks s).outLen = s.inLen := by
  rw [decryptBlocks_frame]

/-- UNPAD keeps the canonical form of OUT. -/
theorem wf_stripIf {s : State} (strip : Bool) (h : s.outMem.wf) : (stripIf strip s).outMem.wf := by
  unfold stripIf unpad
  split_ifs
  · exact h
  · exact Memory.wf_truncate h _
  · exact h

/-- UNPAD cuts OUT at the OUT_LEN it leaves (R151, U12). -/
theorem outBound_stripIf {s : State} (strip : Bool) (h : ∀ c ∈ s.outMem, c.1 < s.outLen) :
    ∀ c ∈ (stripIf strip s).outMem, c.1 < (stripIf strip s).outLen := by
  unfold stripIf unpad
  split_ifs
  · exact h
  · exact Memory.truncate_bound
  · exact h

/-- A DECRYPT leaves OUT in canonical form and within OUT_LEN, whatever OUT was (R50, R52). -/
theorem execDecrypt_out {strip : Bool} {s t : State} (h : execDecrypt strip s = .next t) :
    t.outMem.wf ∧ ∀ c ∈ t.outMem, c.1 < t.outLen := by
  obtain ⟨-, hb, rfl⟩ := execDecrypt_next h
  have bound := outBound_decryptBlocks hb
  rw [← decryptBlocks_outLen s] at bound
  exact ⟨wf_stripIf strip (wf_decryptBlocks s), outBound_stripIf strip bound⟩

/-! ### The invariant -/

/-- The flags are those of a lifecycle state exactly when the tables are there unless destroyed, and no key is loaded when
destroyed (R195). -/
theorem State.lifecycle_isSome_iff (s : State) :
    s.lifecycle.isSome = true ↔ s.tablesReady = !s.destroyed ∧ (s.destroyed = true → s.keyLoaded = false) := by
  unfold State.lifecycle
  cases s.tablesReady <;> cases s.keyLoaded <;> cases s.destroyed <;> decide

/-- Reset is NOKEY: no key state, the tables of INIT, ERR 0, IN and OUT without a listed byte (R39, R195). -/
theorem reset_inv : State.reset.Inv where
  lifecycle := rfl
  keyLoaded := ⟨fun h => Bool.noConfusion h, fun h => absurd rfl h⟩
  derived := .inl ⟨rfl, rfl⟩
  tables := fun _ => rfl
  cleared := fun h => Bool.noConfusion h
  err := .inl rfl
  inForm := Memory.wf_nil
  outForm := Memory.wf_nil
  outBound := fun _ h => absurd h List.not_mem_nil

/-- The invariant speaks of neither the host's side but IN, nor CMD, nor the counters: a change of these, of ERR to a
legal code and of IN within its canonical form keeps it. -/
theorem State.Inv.of_frame {s t : State} (hs : s.Inv)
    (e : t = { s with
      cmd := t.cmd, keylen := t.keylen, offset := t.offset, inLen := t.inLen, keyin := t.keyin, ivin := t.ivin
      err := t.err, inMem := t.inMem, expansions := t.expansions, draws := t.draws, host := t.host })
    (herr : t.err = 0 ∨ t.err = errInvalidKeySize ∨ t.err = errIllegalCommand) (hin : t.inMem.wf) : t.Inv := by
  rw [e]
  exact { hs with err := herr, inForm := hin }

theorem keyLengthValid_iff (n : Nat) : keyLengthValid n = true ↔ n = 16 ∨ n = 24 ∨ n = 32 := by
  simp [keyLengthValid, or_assoc]

@[simp] theorem length_keyOperand (s : State) : (keyOperand s).length = s.keylen / 4 := by
  simp [keyOperand]

/-- A full expansion of a valid key operand loads a key with its schedules, and the tables are still those of INIT (R27,
R114). -/
theorem expandKey_keeps_inv {s : State} (hs : s.Inv) (hd : s.destroyed = false) (hk : keyLengthValid s.keylen = true) :
    (expandKey (keyOperand s) s).Inv := by
  have size : (keyOperand s).length = 4 ∨ (keyOperand s).length = 6 ∨ (keyOperand s).length = 8 := by
    rw [length_keyOperand]
    rcases (keyLengthValid_iff _).mp hk with h | h | h <;> rw [h] <;> decide
  have flags := (State.lifecycle_isSome_iff s).mp hs.lifecycle
  exact { hs with
    lifecycle := (State.lifecycle_isSome_iff _).mpr ⟨flags.1, fun h => absurd (hd.symm.trans h) Bool.false_ne_true⟩
    keyLoaded := ⟨fun _ => show (keyOperand s).length ≠ 0 by omega, fun _ => rfl⟩
    derived := (expandedKey_derived s.tables s.key size).2
    cleared := fun h => absurd (hd.symm.trans h) Bool.false_ne_true }

theorem execExpandkey_keeps_inv {s t : State} (hs : s.Inv) (h : execExpandkey s = .next t) : t.Inv := by
  obtain ⟨hd, ⟨-, rfl⟩ | ⟨-, -, rfl⟩ | ⟨hk, -, rfl⟩⟩ := execExpandkey_next h
  · exact hs.of_frame rfl (.inr (.inl rfl)) hs.inForm
  · exact hs.of_frame rfl (.inl rfl) hs.inForm
  · have expanded := expandKey_keeps_inv hs hd hk
    exact expanded.of_frame rfl (.inl rfl) expanded.inForm

theorem execDecrypt_keeps_inv {strip : Bool} {s t : State} (hs : s.Inv) (h : execDecrypt strip s = .next t) : t.Inv := by
  obtain ⟨hd, -, -⟩ := execDecrypt_next h
  obtain ⟨form, bound⟩ := execDecrypt_out h
  rw [execDecrypt_frame h]
  exact { hs with
    cleared := fun hd' => absurd (hd.symm.trans hd') Bool.false_ne_true
    err := .inl rfl, outForm := form, outBound := bound }

/-- In every state of the invariant DESTROY leaves the same tables, a second DESTROY included (R161, R164). -/
theorem State.Inv.clearTables_eq {s : State} (hs : s.Inv) : clearTables s.tables = clearTables initTables := by
  cases hd : s.destroyed with
  | false => rw [hs.tables hd]
  | true => rw [(hs.cleared hd).1]; rfl

theorem execDestroy_keeps_inv {s t : State} (hs : s.Inv) (h : execDestroy s = .next t) : t.Inv := by
  rw [execDestroy_next h]
  exact { hs with
    lifecycle := rfl
    keyLoaded := ⟨fun h => Bool.noConfusion h, fun h => absurd rfl h⟩
    derived := .inl ⟨rfl, rfl⟩
    tables := fun h => Bool.noConfusion h
    cleared := fun _ => ⟨hs.clearTables_eq, rfl, rfl, rfl, rfl⟩
    err := .inl rfl
    outForm := Memory.wf_nil
    outBound := fun _ h => absurd h List.not_mem_nil }

theorem exec_keeps_inv {i : Instr} {s t : State} (hs : s.Inv) (h : exec i s = .next t) : t.Inv := by
  cases i with
  | expandkey => exact execExpandkey_keeps_inv hs h
  | decrypt strip => exact execDecrypt_keeps_inv hs h
  | destroy => exact execDestroy_keeps_inv hs h

theorem hostAccess_keeps_inv {x : HostAction} {s t : State} (hs : s.Inv) (h : hostAccess x s = .next t) : t.Inv := by
  rcases hostAccess_frame h with ⟨-, rfl⟩ | e | ⟨a, b, -, rfl⟩
  · exact reset_inv.of_frame rfl (.inl rfl) Memory.wf_nil
  · rw [e]
    exact hs.of_frame rfl hs.err hs.inForm
  · exact hs.of_frame rfl hs.err (Memory.wf_write hs.inForm a b)

end Sys2Proof.Machine
end

section
/-! The statements about the state settled: each from the frames, the rules of the host's side and the invariant. -/

namespace Sys2Proof.Machine

/-- Settles O50: a step is a command, an illegal byte, a host access or idleness, and each keeps the invariant. -/
theorem stepKeepsTheInvariant : Obligations.StepKeepsTheInvariant := by
  intro s t hs h
  rcases step_next h with ⟨b, i, -, -, he⟩ | ⟨b, e, -, -, rfl⟩ | ⟨x, xs, -, -, ha⟩ | ⟨-, -, rfl⟩
  · have taken : ({ s with cmd := none } : State).Inv := hs.of_frame rfl hs.err hs.inForm
    exact exec_keeps_inv taken he
  · exact hs.of_frame rfl (.inr (.inr rfl)) hs.inForm
  · have advanced : ({ s with host := xs } : State).Inv := hs.of_frame rfl hs.err hs.inForm
    exact hostAccess_keeps_inv advanced ha
  · exact hs

/-- Settles O7, by what a word written to a byte operand does. -/
theorem operandRegisterWordsAreBigEndian : Obligations.OperandRegisterWordsAreBigEndian := by
  intro s v _
  exact ⟨fun j hj => ⟨_, writeRegister_keyin hj v s, fun _ ha => getD_setWordBytes _ j _ ha⟩,
    fun j hj => ⟨_, writeRegister_ivin hj v s, fun _ ha => getD_setWordBytes _ j _ ha⟩⟩

/-- Settles O45: a command keeps the host's side by its frame, an illegal byte writes ERR only. -/
theorem commandsNeverWriteTheHostsSide : Obligations.CommandsNeverWriteTheHostsSide := by
  intro b s t h
  rcases runCommand_next h with ⟨i, -, he⟩ | ⟨e, -, rfl⟩
  · rw [exec_frame he]
    exact ⟨rfl, rfl, rfl, rfl, rfl, fun _ => rfl, rfl, rfl⟩
  · exact ⟨rfl, rfl, rfl, rfl, rfl, fun _ => rfl, rfl, rfl⟩

/-- Settles O46, by the frame of each command. -/
theorem eachStateHasItsOwnWriters : Obligations.EachStateHasItsOwnWriters := by
  intro i s t h
  cases i with
  | expandkey =>
    rw [execExpandkey_frame h]
    exact ⟨fun _ => ⟨rfl, rfl, rfl⟩, fun _ hi => Instr.noConfusion hi, fun _ => ⟨fun _ => rfl, rfl, rfl, rfl⟩⟩
  | decrypt strip =>
    rw [execDecrypt_frame h]
    exact ⟨fun _ => ⟨rfl, rfl, rfl⟩, fun _ _ => ⟨rfl, rfl, rfl⟩, fun hi => Instr.noConfusion hi⟩
  | destroy => exact ⟨fun hi => absurd rfl hi, fun _ hi => Instr.noConfusion hi, fun hi => Instr.noConfusion hi⟩

/-- Settles O6: registers by the model's own branch, IN by read after write, KEYIN and IVIN by a write in bounds. -/
theorem hostWritesReachTheirRegisters : Obligations.HostWritesReachTheirRegisters := by
  intro s v a b
  refine ⟨fun _ => rfl, rfl, rfl, rfl, fun wf => ?_, fun h => ?_, fun h => ?_⟩
  · exact ⟨s.inMem.write a b, rfl, Memory.wf_write wf a b, Memory.read_write wf a b⟩
  · simp only [hostAccess, if_pos h, setIfInBounds_eq_set _ b h]
  · simp only [hostAccess, if_pos h, setIfInBounds_eq_set _ b h]

/-- Settles O9: a register number no branch takes is refused, an address past the end of its space faults. -/
theorem accessesTheInterfaceLacksStop : Obligations.AccessesTheInterfaceLacksStop := by
  intro s n v a b
  refine ⟨fun h => writeRegister_refused h v s, fun h => ?_, fun h => if_neg (Nat.not_lt.mpr h),
    fun h => if_neg (Nat.not_lt.mpr h), fun h => ?_⟩
  · simp [hostAccess, readRegister_none h]
  · simp [hostAccess, readOut_none h]

/-- Settles O10, by the bits of STATUS; ERR is its upper part. -/
theorem statusBitsAreFlagsAndErr : Obligations.StatusBitsAreFlagsAndErr := by
  intro s
  exact ⟨getLsbD_status s 0, getLsbD_status s 1, getLsbD_status s 2, getLsbD_status s 3,
    BitVec.extractLsb'_append_eq_left⟩

/-- Settles O14: each is the value that the reset state is written with (R39). -/
theorem resetLeavesTheValuesOfTheRules : Obligations.ResetLeavesTheValuesOfTheRules :=
  ⟨rfl, rfl, rfl, rfl, rfl, rfl, rfl, fun a => readOut_none (Nat.zero_le a), rfl, rfl, rfl, rfl, rfl, rfl⟩

/-- Settles O49, field by field of the reset state. -/
theorem resetSatisfiesTheInvariant : Obligations.ResetSatisfiesTheInvariant := reset_inv

end Sys2Proof.Machine
end

section
/-! Reads: a byte space read back after a store of bytes or of a word, and the host's reads and idleness. -/

namespace Sys2Proof.Machine

/-! ### Byte spaces read back -/

/-- Byte `i` of a byte string stored at `a` reads back at `a + i`. -/
theorem Memory.read_writeBytes_add {m : Memory} (h : m.wf) (a : Nat) (bs : List Byte) {i : Nat} (hi : i < bs.length) :
    (m.writeBytes a bs).read (a + i) = bs.getD i 0 := by
  rw [Memory.read_writeBytes h, if_pos (by omega), Nat.add_sub_cancel_left]

/-- Outside its addresses a store of a byte string changes no byte. -/
theorem Memory.read_writeBytes_outside {m : Memory} (h : m.wf) (a : Nat) (bs : List Byte) {x : Nat}
    (hx : x < a ∨ a + bs.length ≤ x) : (m.writeBytes a bs).read x = m.read x := by
  rw [Memory.read_writeBytes h, if_neg (by omega)]

/-- A byte string that was stored is the string read from its addresses. -/
theorem Memory.readBytes_writeBytes {m : Memory} (h : m.wf) (a : Nat) (bs : List Byte) :
    (m.writeBytes a bs).readBytes a bs.length = bs := by
  refine List.ext_getElem (Memory.length_readBytes _ _ _) fun i hr hi => ?_
  have read_back : ((m.writeBytes a bs).readBytes a bs.length).getD i 0 = bs.getD i 0 := by
    rw [Memory.getD_readBytes _ _ _ _ hi, Memory.read_writeBytes_add h a bs hi]
  simpa only [List.getD_eq_getElem _ _ hr, List.getD_eq_getElem _ _ hi] using read_back

/-- Byte `3 - i` of a word stored at `a` reads back at `a + i` (R55). -/
theorem Memory.read_writeWord_add {m : Memory} (h : m.wf) (a : Nat) (w : Word) {i : Nat} (hi : i < 4) :
    (m.writeWord a w).read (a + i) = byteAt w (3 - i) := by
  rw [Memory.writeWord, Memory.read_writeBytes_add h a _ hi]
  match i, hi with
  | 0, _ | 1, _ | 2, _ | 3, _ => rfl

/-- A word that was stored is the word read at its address. -/
theorem Memory.readWord_writeWord {m : Memory} (h : m.wf) (a : Nat) (w : Word) : (m.writeWord a w).readWord a = w := by
  have byte (i : Nat) (hi : i < 4) := Memory.read_writeWord_add h a w hi
  have first : (m.writeWord a w).read a = byteAt w 3 := byte 0 (by decide)
  rw [Memory.readWord, first, byte 1 (by decide), byte 2 (by decide), byte 3 (by decide)]
  exact wordOf_byteAt w

/-! ### The host's reads, and idleness -/

/-- With no command waiting and no access of the host, a step keeps the whole state (R186). -/
theorem step_of_idle {s : State} (hc : s.cmd = none) (hh : s.host = []) : step s = .next s := by
  simp [step, State.takeCmd, hc, hostTurn, hh]

/-- OUT has its byte below OUT_LEN (R50). -/
theorem readOut_some {a : Nat} {s : State} (h : a < s.outLen) : readOut a s = some (s.outMem.read a) :=
  if_pos h

/-- A host read of a register that delivers a value changes nothing (R58, R174). -/
theorem hostAccess_readReg {n v : Nat} {s : State} (h : readRegister n s = some v) :
    hostAccess (.readReg n) s = .next s := by
  simp only [hostAccess, h, Option.isSome_some, if_true]

/-- A host read of a byte of OUT that delivers the byte changes nothing (R58, R174). -/
theorem hostAccess_readOut {a : Nat} {b : Byte} {s : State} (h : readOut a s = some b) :
    hostAccess (.readOut a) s = .next s := by
  simp only [hostAccess, h, Option.isSome_some, if_true]

end Sys2Proof.Machine
end

section
/-! The statements about the byte spaces and the host's side settled, from what reads give after writes. -/

namespace Sys2Proof.Machine

/-- Settles O47: a word store is a store of four bytes, most significant first, and a word is the word of its bytes. -/
theorem wordsOfAByteSpaceAreBigEndian : Obligations.WordsOfAByteSpaceAreBigEndian := by
  intro m a w wf
  exact ⟨fun _ hi => Memory.read_writeWord_add wf a w hi, fun _ hx => Memory.read_writeBytes_outside wf a _ hx,
    Memory.readWord_writeWord wf a w, Memory.wf_writeBytes wf a _⟩

/-- Settles O48, by read after write for one byte and for a string. -/
theorem bytesWrittenToAByteSpaceReadBack : Obligations.BytesWrittenToAByteSpaceReadBack := by
  intro m a b bs wf
  exact ⟨Memory.read_write wf a b, Memory.wf_write wf a b, Memory.readBytes_writeBytes wf a bs,
    fun _ hi => Memory.read_writeBytes_add wf a bs hi, fun _ hx => Memory.read_writeBytes_outside wf a bs hx,
    Memory.wf_writeBytes wf a bs⟩

/-- Settles O5: a step without a waiting command is the host's turn. -/
theorem hostAccessesAndIdleness : Obligations.HostAccessesAndIdleness :=
  ⟨fun _ _ _ hc hh => step_of_host hc hh, fun _ hc hh => step_of_idle hc hh⟩

/-- Settles O8: each read delivers a value, and a read that does keeps the state. -/
theorem readsHaveNoSideEffect : Obligations.ReadsHaveNoSideEffect := by
  intro s a
  have status : readRegister 1 s = some s.status.toNat := rfl
  have outLen : readRegister 5 s = some s.outLen := rfl
  exact ⟨⟨hostAccess_readReg status, status⟩, ⟨hostAccess_readReg outLen, outLen⟩,
    fun h => ⟨hostAccess_readOut (readOut_some h), readOut_some h⟩⟩

end Sys2Proof.Machine
end

section
/-! The decoder: which bytes are commands, and what a step makes of the byte waiting in CMD. -/

namespace Sys2Proof

/-! ### Bytes, fields and commands -/

/-- A command byte is put together again from the fields read off it (R71). -/
theorem byteOfFields_fieldsOf (b : Byte) : byteOfFields (fieldsOf b) = b := by
  refine BitVec.eq_of_getLsbD_eq fun i hi => ?_
  show (b.extractLsb' 3 5 ++ (BitVec.ofBool (b.getLsbD 2) ++ b.extractLsb' 0 2) : BitVec (5 + (1 + 2))).getLsbD i = _
  simp only [BitVec.getLsbD_append, BitVec.getLsbD_extractLsb', BitVec.getLsbD_ofBool]
  rcases Nat.lt_trichotomy i 2 with h | rfl | h
  · simp [h, show i < 3 by omega]
  · rfl
  · simp [show ¬ i < 3 by omega, show i - 3 < 5 by omega, show 3 + (i - 3) = i by omega]

/-- Every instruction stands for the fields of a command. -/
theorem Instr.wellFormed_eq_true (i : Instr) : i.wellFormed = true :=
  match i with
  | .expandkey => Laws.FieldsWellFormed.expandkey
  | .decrypt strip => Laws.FieldsWellFormed.decrypt strip
  | .destroy => Laws.FieldsWellFormed.destroy

/-- A command's byte decodes to the command (R72). -/
@[simp] theorem decodeCmd_encodeCmd (i : Instr) : decodeCmd (encodeCmd i) = .ok i := by
  cases i with
  | expandkey => rfl
  | decrypt strip => cases strip <;> rfl
  | destroy => rfl

/-- A two-bit operation code that is not 00, 01 or 10 is 11 (R71). -/
theorem op_eq_three {op : BitVec 2} (h0 : op ≠ 0) (h1 : op ≠ 1) (h2 : op ≠ 2) : op = 3 := by
  revert op
  decide

/-- A byte that decodes to a command has that command's fields: the checks of R71 and R75 leave no others. -/
theorem fieldsOf_of_decodeCmd {b : Byte} {i : Instr} (h : decodeCmd b = .ok i) : fieldsOf b = i.fields := by
  unfold decodeCmd at h
  generalize fieldsOf b = f at h ⊢
  obtain ⟨rsv, strip, op⟩ := f
  simp only [CmdFields.rsvZero, CmdFields.opUsed, CmdFields.stripAllowed] at h
  split_ifs at h with hr ho hs h1 h2 <;> cases h
  · obtain rfl : rsv = 0 := by simpa using hr
    obtain rfl : strip = false := by
      subst h1
      simpa using hs
    rw [h1, Instr.fields]
  · obtain rfl : rsv = 0 := by simpa using hr
    rw [h2, Instr.fields]
  · obtain rfl : rsv = 0 := by simpa using hr
    obtain rfl : strip = false := Bool.eq_false_iff.mpr fun ht => h2 (by simpa [ht] using hs)
    rw [op_eq_three (by simpa using ho) h1 h2, Instr.fields]

/-- The bytes that are commands are the encodings, each of its own command (R71, R72, R75). -/
theorem decodeCmd_eq_ok_iff (b : Byte) (i : Instr) : decodeCmd b = .ok i ↔ b = encodeCmd i := by
  constructor
  · intro h
    rw [encodeCmd, ← fieldsOf_of_decodeCmd h, byteOfFields_fieldsOf]
  · rintro rfl
    exact decodeCmd_encodeCmd i

/-- The encodings are the four bytes of R72. -/
theorem encodeCmd_cases (i : Instr) : encodeCmd i = 1 ∨ encodeCmd i = 2 ∨ encodeCmd i = 3 ∨ encodeCmd i = 6 := by
  cases i with
  | expandkey => exact .inl rfl
  | decrypt strip =>
    cases strip
    · exact .inr (.inl rfl)
    · exact .inr (.inr (.inr rfl))
  | destroy => exact .inr (.inr (.inl rfl))

/-- Every byte but those four is no command (R75). -/
theorem decodeCmd_error {b : Byte} (h1 : b ≠ 1) (h2 : b ≠ 2) (h3 : b ≠ 3) (h6 : b ≠ 6) :
    ∃ e, decodeCmd b = .error e := by
  cases hd : decodeCmd b with
  | error e => exact ⟨e, rfl⟩
  | ok i =>
    obtain rfl := (decodeCmd_eq_ok_iff b i).mp hd
    rcases encodeCmd_cases i with h | h | h | h <;> contradiction

/-- A table word stands for what its byte decodes to. -/
theorem decodeTableWord_eq_some_iff (nbits w : Nat) (i : Instr) :
    decodeTableWord nbits w = some i ↔ decodeCmd (tableByte nbits w) = .ok i := by
  rw [decodeTableWord, decode]
  cases decodeCmd (tableByte nbits w) with
  | error e => exact ⟨nofun, nofun⟩
  | ok j => simp only [Except.map, Option.some.injEq, Except.ok.injEq]

end Sys2Proof

namespace Sys2Proof.Machine

/-! ### Performing the byte in CMD -/

/-- With a byte waiting in CMD, a step performs it (R71). -/
theorem step_of_cmd {s : State} {b : Byte} (h : s.cmd = some b) : step s = runCommand b { s with cmd := none } := by
  simp [step, State.takeCmd, h]

/-- Performing a byte that is a command is the command. -/
theorem runCommand_of_ok {b : Byte} {i : Instr} (h : decodeCmd b = .ok i) (s : State) : runCommand b s = exec i s := by
  simp [runCommand, h]

/-- Performing a byte that is no command sets ERR and nothing else (R75, R173). -/
theorem runCommand_of_error {b : Byte} {e : DecodeError} (h : decodeCmd b = .error e) (s : State) :
    runCommand b s = .next { s with err := errIllegalCommand } := by
  simp only [runCommand, h]
  rfl

/-- A step with a command's byte in CMD is that command, at the state with CMD taken. -/
theorem step_of_command {s : State} {b : Byte} {i : Instr} (h : s.cmd = some b) (hd : decodeCmd b = .ok i) :
    step s = exec i { s with cmd := none } := by
  rw [step_of_cmd h, runCommand_of_ok hd]

/-- A step where no command waits and the host's list is named: its first access. -/
theorem step_host_cons {s : State} (hc : s.cmd = none) (x : HostAction) (xs : List HostAction) :
    step { s with host := x :: xs } = hostAccess x { s with host := xs } :=
  step_of_host (s := { s with host := x :: xs }) hc rfl

/-- A host write of CMD leaves the byte waiting there (R33). -/
theorem writeRegister_cmd (v : Nat) (s : State) :
    writeRegister 0 v s = .next { s with cmd := some (BitVec.ofNat 8 v) } := rfl

end Sys2Proof.Machine
end

section
/-! Runs through a line of the call syntax: the writes of its operands, whose effects differ from kind to kind and are
composed one after the other, then the command. -/

namespace Sys2Proof.Machine

/-! ### Accesses that lead from one state to another -/

/-- The accesses `xs` lead from `s` to `t`, one step each, whatever the host does after them; the host's list is theirs
to name, so that of `s` and `t` does not count. -/
def LeadsTo (xs : List HostAction) (s t : State) : Prop :=
  ∀ (rest : List HostAction) (n : Nat),
    Host.Core.run Sys2Proof.core (xs.length + n) { s with host := xs ++ rest } =
      Host.Core.run Sys2Proof.core n { t with host := rest }

theorem LeadsTo.nil (s : State) : LeadsTo [] s s := by
  intro rest n
  rw [List.length_nil, Nat.zero_add, List.nil_append]

/-- One access that goes on, and then the rest of them. -/
theorem LeadsTo.cons {x : HostAction} {xs : List HostAction} {s t u : State} (hc : s.cmd = none)
    (hx : ∀ h, hostAccess x { s with host := h } = .next { t with host := h }) (hxs : LeadsTo xs t u) :
    LeadsTo (x :: xs) s u := by
  intro rest n
  have first : step { s with host := x :: xs ++ rest } = .next { t with host := xs ++ rest } :=
    (step_host_cons hc x (xs ++ rest)).trans (hx (xs ++ rest))
  rw [List.length_cons, Nat.add_right_comm, run_succ_of_next _ first, hxs]

theorem LeadsTo.append {xs ys : List HostAction} {s t u : State} (hx : LeadsTo xs s t) (hy : LeadsTo ys t u) :
    LeadsTo (xs ++ ys) s u := by
  intro rest n
  rw [List.length_append, Nat.add_assoc, List.append_assoc, hx, hy]

/-- The write of CMD that starts a command is followed by the command, at the state with nothing else changed (R71). -/
theorem run_issue {s : State} (hc : s.cmd = none) (i : Instr) (rest : List HostAction) :
    Host.Core.run Sys2Proof.core 2 { s with host := issue i :: rest } = exec i { s with host := rest } := by
  have written : step { s with host := issue i :: rest } =
      .next { s with host := rest, cmd := some (encodeCmd i) } := by
    rw [step_host_cons hc, issue, hostAccess, writeRegister_cmd, BitVec.ofNat_toNat, BitVec.setWidth_eq]
  rw [run_succ_of_next 1 written, run_one, step_of_command rfl (decodeCmd_encodeCmd i), ← hc]

/-- Where the accesses before the write of CMD lead to `t`, the command runs at `t` (R77). -/
theorem LeadsTo.run_line {xs rest : List HostAction} {s t : State} (i : Instr) (hl : LeadsTo xs s t) (hc : t.cmd = none)
    (hh : s.host = xs ++ [issue i] ++ rest) :
    Host.Core.run Sys2Proof.core ((xs ++ [issue i]).length + 1) s = exec i { t with host := rest } := by
  have start : { s with host := xs ++ issue i :: rest } = s := by
    rw [List.append_cons, ← hh]
  rw [← start, List.length_append, List.length_singleton, Nat.add_assoc, hl, run_issue hc]

/-! ### Operands written byte by byte -/

/-- The bytes `bs` written one by one, by `write`, at rising addresses from `a`. -/
def writeEach {α : Type} (write : α → Nat → Byte → α) : α → Nat → List Byte → α
  | x, _, [] => x
  | x, a, b :: bs => writeEach write (write x a b) (a + 1) bs

/-- Byte writes of an operand `x` of the state `put x` lead to the state with the bytes written into it, if below the
bound `n` each write goes on and writes its byte. -/
theorem leadsTo_byteWrites {α : Type} (put : α → State) (write : α → Nat → Byte → α)
    {mk : Nat → Byte → HostAction} (n : Nat) (hc : ∀ x, (put x).cmd = none)
    (hw : ∀ x a b h, a < n →
      hostAccess (mk a b) { put x with host := h } = .next { put (write x a b) with host := h })
    (x : α) (a : Nat) (bs : List Byte) (hn : a + bs.length ≤ n) :
    LeadsTo (byteWrites mk a bs) (put x) (put (writeEach write x a bs)) := by
  induction bs generalizing x a with
  | nil => exact LeadsTo.nil _
  | cons b bs ih =>
    rw [List.length_cons] at hn
    exact LeadsTo.cons (hc x) (fun h => hw x a b h (by omega)) (ih (write x a b) (a + 1) (by omega))

/-- Bytes written one by one to a byte space (R51). -/
theorem writeEach_memory (m : Memory) (a : Nat) (bs : List Byte) :
    writeEach Memory.write m a bs = m.writeBytes a bs := by
  induction bs generalizing m a with
  | nil => rfl
  | cons b bs ih => exact ih (m.write a b) (a + 1)

/-- Bytes written one by one to a byte operand: they stand from `a` on, and every other byte is as it was (R34). -/
theorem getD_writeEach_setIfInBounds {n : Nat} (bytes : Vector Byte n) (a : Nat) (bs : List Byte) {j : Nat}
    (hj : j < n) :
    (writeEach Vector.setIfInBounds bytes a bs).toList.getD j 0 =
      if a ≤ j ∧ j < a + bs.length then bs.getD (j - a) 0 else bytes.toList.getD j 0 := by
  induction bs generalizing bytes a with
  | nil => rw [if_neg (by simp only [List.length_nil]; omega), writeEach]
  | cons b bs ih =>
    rw [writeEach, ih, List.length_cons, getD_toList_eq_getElem _ hj, getD_toList_eq_getElem _ hj,
      Vector.getElem_setIfInBounds]
    by_cases here : j = a
    · subst here
      rw [if_neg (by omega), if_pos rfl, if_pos (by omega), Nat.sub_self, List.getD_cons_zero]
    · by_cases later : a + 1 ≤ j ∧ j < a + 1 + bs.length
      · rw [if_pos later, if_pos (by omega), show j - a = j - (a + 1) + 1 by omega, List.getD_cons_succ]
      · rw [if_neg later, if_neg (by omega), if_neg (by omega)]

/-- A byte operand written from end to end holds the bytes written. -/
theorem writeEach_setIfInBounds_toList {n : Nat} (bytes new : Vector Byte n) :
    writeEach Vector.setIfInBounds bytes 0 new.toList = new := by
  ext j hj
  rw [← getD_toList_eq_getElem _ hj, ← getD_toList_eq_getElem _ hj, getD_writeEach_setIfInBounds _ _ _ hj,
    if_pos ⟨Nat.zero_le _, by simpa using hj⟩, Nat.sub_zero]

/-! ### The operands of the lines -/

/-- A host write of a byte that KEYIN has (R50). -/
theorem hostAccess_writeKeyin {a : Nat} (ha : a < 32) (b : Byte) (s : State) :
    hostAccess (.writeKeyin a b) s = .next { s with keyin := s.keyin.setIfInBounds a b } := if_pos ha

/-- A host write of a byte that IVIN has (R50). -/
theorem hostAccess_writeIvin {a : Nat} (ha : a < 16) (b : Byte) (s : State) :
    hostAccess (.writeIvin a b) s = .next { s with ivin := s.ivin.setIfInBounds a b } := if_pos ha

/-- Writes of KEYIN (R34). -/
theorem leadsTo_writeKeyin {s : State} (hc : s.cmd = none) (bs : List Byte) (hn : bs.length ≤ 32) :
    LeadsTo (byteWrites .writeKeyin 0 bs) s { s with keyin := writeEach Vector.setIfInBounds s.keyin 0 bs } :=
  leadsTo_byteWrites (fun k => { s with keyin := k }) Vector.setIfInBounds 32 (fun _ => hc)
    (fun _ _ b _ ha => hostAccess_writeKeyin ha b _) s.keyin 0 bs (by omega)

/-- Writes of all of IVIN (R34). -/
theorem leadsTo_writeIvin {s : State} (hc : s.cmd = none) (iv : Vector Byte 16) :
    LeadsTo (byteWrites .writeIvin 0 iv.toList) s { s with ivin := iv } := by
  have each := leadsTo_byteWrites (fun v => { s with ivin := v }) Vector.setIfInBounds 16 (fun _ => hc)
    (fun _ _ b _ ha => hostAccess_writeIvin ha b _) s.ivin 0 iv.toList (by simp)
  rwa [writeEach_setIfInBounds_toList] at each

/-- Writes of IN (R51). -/
theorem leadsTo_writeIn {s : State} (hc : s.cmd = none) (bs : List Byte) :
    LeadsTo (byteWrites .writeIn 0 bs) s { s with inMem := s.inMem.writeBytes 0 bs } := by
  rw [← writeEach_memory]
  exact leadsTo_byteWrites (fun m => { s with inMem := m }) Memory.write (0 + bs.length) (fun _ => hc)
    (fun _ _ _ _ _ => rfl) s.inMem 0 bs le_rfl

/-- The operands of the line EXPANDKEY (R77). -/
theorem leadsTo_expandkeyOperands {s : State} (hc : s.cmd = none) (key : List Byte) :
    LeadsTo (.writeReg 2 key.length :: byteWrites .writeKeyin 0 (key.take 32)) s
      { s with
        keylen := key.length, keyin := writeEach Vector.setIfInBounds s.keyin 0 (key.take 32) } :=
  LeadsTo.cons (t := { s with keylen := key.length }) hc (fun _ => rfl)
    (leadsTo_writeKeyin (s := { s with keylen := key.length }) hc _ (List.length_take_le 32 key))

/-- The operands of the lines DECRYPT and DECRYPT.S (R77). -/
theorem leadsTo_decryptOperands {s : State} (hc : s.cmd = none) (buffer : List Byte) (offset : Nat)
    (iv : Vector Byte 16) :
    LeadsTo (byteWrites .writeIn 0 buffer ++ .writeReg 4 buffer.length :: .writeReg 3 offset ::
        byteWrites .writeIvin 0 iv.toList) s
      (s.withDecryptOperands (s.inMem.writeBytes 0 buffer) buffer.length offset iv) := by
  refine (leadsTo_writeIn hc buffer).append ?_
  refine .cons (t := s.withDecryptOperands (s.inMem.writeBytes 0 buffer) buffer.length s.offset s.ivin) hc
    (fun _ => rfl) ?_
  refine .cons (t := s.withDecryptOperands (s.inMem.writeBytes 0 buffer) buffer.length offset s.ivin) hc
    (fun _ => rfl) ?_
  refine leadsTo_writeIvin ?_ iv
  exact hc

end Sys2Proof.Machine
end

section
/-! The statements about the encoding settled: from what the decoder answers, and from what the accesses of a line lead
to. -/

namespace Sys2Proof.Machine

/-- Settles O2: a byte is put together again from its fields, and a byte that decodes has its command's fields. -/
theorem decodeAndEncodeAgree : Obligations.DecodeAndEncodeAgree := by
  refine ⟨fun i rest => ⟨i.wellFormed_eq_true, ?_⟩, decodeCmd_eq_ok_iff⟩
  rw [encode, List.singleton_append, decode, decodeCmd_encodeCmd]
  rfl

/-- Settles O4: the value's byte is none of the four commands, so performing it sets ERR. -/
theorem illegalCommandSetsErrAndNothingElse : Obligations.IllegalCommandSetsErrAndNothingElse := by
  intro s v xs hc hh hv h1 h2 h3 h6
  have other : ∀ n < 256, v ≠ n → BitVec.ofNat 8 v ≠ BitVec.ofNat 8 n := by
    intro n hn hne heq
    have : v % 256 = n % 256 := by simpa using congrArg BitVec.toNat heq
    omega
  obtain ⟨e, he⟩ := decodeCmd_error (other 1 (by decide) h1) (other 2 (by decide) h2) (other 3 (by decide) h3)
    (other 6 (by decide) h6)
  refine ⟨{ s with host := xs, cmd := some (BitVec.ofNat 8 v) }, ?_, ?_⟩
  · rw [step_of_host hc hh, hostAccess, writeRegister_cmd]
  · rw [step_of_cmd rfl, runCommand_of_error he, ← hc]
    rfl

/-- Settles O11: the operands' writes lead to the state with KEYLEN and KEYIN as named, and the command runs there. -/
theorem expandkeyLineRunsWithItsOperands : Obligations.ExpandkeyLineRunsWithItsOperands := by
  intro s key rest hc hh
  refine ⟨_, (leadsTo_expandkeyOperands hc key).run_line .expandkey hc hh, fun a ha => ?_⟩
  rw [getD_writeEach_setIfInBounds _ _ _ ha, List.length_take]
  by_cases below : a < key.length
  · rw [if_pos (by omega), if_pos below, Nat.sub_zero]
    simp [List.getElem?_take_of_lt ha]
  · rw [if_neg (by omega), if_neg below]

/-- Settles O12: the operands' writes lead to the state with IN, IN_LEN, OFFSET and IVIN as named, and the command runs
there. -/
theorem decryptLineRunsWithItsOperands : Obligations.DecryptLineRunsWithItsOperands := by
  intro s buffer offset iv strip rest hc wf hh
  refine ⟨s.inMem.writeBytes 0 buffer, (leadsTo_decryptOperands hc buffer offset iv).run_line (.decrypt strip) hc hh,
    Memory.wf_writeBytes wf 0 buffer, fun a => ?_⟩
  simp only [Memory.read_writeBytes wf, Nat.zero_le, true_and, Nat.zero_add, Nat.sub_zero]

/-- Settles O1: the four bytes and the four table words are the encodings of R72. -/
theorem commandBytesDecodeAsTheTableSays : Obligations.CommandBytesDecodeAsTheTableSays := by
  have table : ∀ w i, tableByte 8 w = encodeCmd i → decodeTableWord 8 w = some i := fun w i h =>
    (decodeTableWord_eq_some_iff 8 w i).mpr ((decodeCmd_eq_ok_iff _ i).mpr h)
  exact ⟨decodeCmd_encodeCmd .expandkey, decodeCmd_encodeCmd (.decrypt false), decodeCmd_encodeCmd (.decrypt true),
    decodeCmd_encodeCmd .destroy, table _ _ rfl, table _ _ rfl, table _ _ rfl, table _ _ rfl⟩

/-- Settles O3: the byte in CMD, a table word's byte too, is decoded and its command runs. -/
theorem stepPerformsTheDecodedCommand : Obligations.StepPerformsTheDecodedCommand :=
  ⟨fun _ _ _ hc hd => step_of_command hc hd,
    fun _ w i h => step_of_command rfl ((decodeTableWord_eq_some_iff 8 w i).mp h)⟩

/-- Settles O13: no operand is written before the command of a bare write of CMD and of the line DESTROY, and the line
RESET is one access. -/
theorem destroyAndResetLinesRun : Obligations.DestroyAndResetLinesRun := by
  intro s rest hc
  have bare : LeadsTo [] s s := .nil s
  exact ⟨fun i hh => bare.run_line i hc hh, fun hh => bare.run_line .destroy hc hh,
    fun hh => (run_one s).trans (step_of_host hc hh)⟩

end Sys2Proof.Machine
end

section
/-! The field of bytes: XOR as addition, `gmul` as multiplication. A byte is reached from 0 by doubling and adding 1, as
Horner's scheme evaluates a polynomial; `gmul` commutes with both steps in its first operand, and every law of it is an
induction along them. -/

namespace Sys2Proof.Machine

/-! ### Doubling and the bytes it reaches -/

/-- Doubling undoes the shift right by one, up to the bit shifted out. -/
theorem double_ushiftRight_one (a : Byte) :
    double (a >>> 1) = if a.getLsbD 0 then a ^^^ 1 else a := by
  revert a; decide

theorem double_zero : double 0 = 0 := rfl

/-- Induction along a byte's bits, most significant first: what holds of 0 and is kept by doubling and by adding 1 holds of
every byte. -/
theorem byte_induction {motive : Byte → Prop} (zero : motive 0) (double : ∀ a, motive a → motive (double a))
    (add_one : ∀ a, motive a → motive (a ^^^ 1)) (a : Byte) : motive a := by
  by_cases ha : a = 0
  · exact ha ▸ zero
  · have smaller : (a >>> 1).toNat < a.toNat := by
      have pos : a.toNat ≠ 0 := fun h => ha (BitVec.eq_of_toNat_eq h)
      rw [BitVec.toNat_ushiftRight, Nat.shiftRight_eq_div_pow]
      omega
    have half := double _ (byte_induction zero double add_one (a >>> 1))
    rw [double_ushiftRight_one] at half
    split at half
    · simpa [BitVec.xor_assoc] using add_one _ half
    · exact half
termination_by a.toNat

/-! ### One rule of multiplication per step of the first operand -/

/-- The loop of `gmul` commutes with doubling. -/
theorem gmulLoop_double (n : Nat) (r a b : Byte) :
    gmulLoop n (double r) (double a) b = double (gmulLoop n r a b) := by
  induction n generalizing r a b with
  | zero => rfl
  | succ n ih =>
    simp only [gmulLoop]
    split
    · rw [← double_xor, ih]
    · exact ih r (double a) (b >>> 1)

theorem zero_gmul (a : Byte) : gmul 0 a = 0 := by
  revert a; decide

theorem one_gmul (a : Byte) : gmul 1 a = a := by
  revert a; decide

/-- Multiplication distributes over XOR in its first operand (R92). -/
theorem xor_gmul (a b c : Byte) : gmul (a ^^^ b) c = gmul a c ^^^ gmul b c := gmulLoop_xor 8 0 0 a b c

theorem double_gmul (a b : Byte) : gmul (double a) b = double (gmul a b) := gmulLoop_double 8 0 a b

/-! ### The laws -/

/-- Multiplication distributes over XOR in its second operand (R92). -/
theorem gmul_xor (a b c : Byte) : gmul a (b ^^^ c) = gmul a b ^^^ gmul a c := by
  induction a using byte_induction with
  | zero => simp only [zero_gmul]; rfl
  | double a ih => simp only [double_gmul, ih, double_xor]
  | add_one a ih => simp only [xor_gmul, one_gmul, ih]; ac_rfl

theorem gmul_double (a b : Byte) : gmul a (double b) = double (gmul a b) := by
  induction a using byte_induction with
  | zero => rw [zero_gmul, zero_gmul, double_zero]
  | double a ih => rw [double_gmul, double_gmul, ih]
  | add_one a ih => rw [xor_gmul, xor_gmul, one_gmul, one_gmul, ih, double_xor]

theorem gmul_zero (a : Byte) : gmul a 0 = 0 := (gmul_xor a 0 0).trans BitVec.xor_self

theorem gmul_one (a : Byte) : gmul a 1 = a := by
  induction a using byte_induction with
  | zero => exact zero_gmul 1
  | double a ih => rw [double_gmul, ih]
  | add_one a ih => rw [xor_gmul, one_gmul, ih]

theorem gmul_comm (a b : Byte) : gmul a b = gmul b a := by
  induction a using byte_induction with
  | zero => rw [zero_gmul, gmul_zero]
  | double a ih => rw [double_gmul, gmul_double, ih]
  | add_one a ih => rw [xor_gmul, gmul_xor, one_gmul, gmul_one, ih]

theorem gmul_assoc (a b c : Byte) : gmul (gmul a b) c = gmul a (gmul b c) := by
  induction a using byte_induction with
  | zero => simp only [zero_gmul]
  | double a ih => simp only [double_gmul, ih]
  | add_one a ih => simp only [xor_gmul, one_gmul, ih]

/-! ### Multiplication by the constants of the tables -/

theorem two_gmul (a : Byte) : gmul 2 a = double a := by
  rw [show (2 : Byte) = double 1 from rfl, double_gmul, one_gmul]

theorem four_gmul (a : Byte) : gmul 4 a = double (double a) := by
  rw [show (4 : Byte) = double 2 from rfl, double_gmul, two_gmul]

theorem eight_gmul (a : Byte) : gmul 8 a = double (double (double a)) := by
  rw [show (8 : Byte) = double 4 from rfl, double_gmul, four_gmul]

end Sys2Proof.Machine
end

section
/-! Powers of bytes and the field inverse (R93): squaring is linear, so `a ^ 256 = a`, and with 0 and 1 the only idempotents
every nonzero byte has the inverse `a ^ 254`. -/

namespace Sys2Proof.Machine

/-! ### Powers -/

/-- The power `a ^ n` of the field. -/
def gpow (a : Byte) (n : Nat) : Byte := (gmul a)^[n] 1

theorem gpow_succ (a : Byte) (n : Nat) : gpow a (n + 1) = gmul a (gpow a n) :=
  Function.iterate_succ_apply' (gmul a) n 1

theorem gpow_one (a : Byte) : gpow a 1 = a := by
  rw [gpow, Function.iterate_one, gmul_one]

/-- Exponents add under multiplication. -/
theorem gmul_gpow (a : Byte) (m n : Nat) : gmul (gpow a m) (gpow a n) = gpow a (m + n) := by
  induction m with
  | zero => rw [Nat.zero_add]; exact one_gmul _
  | succ m ih => rw [Nat.add_right_comm, gpow_succ, gpow_succ, gmul_assoc, ih]

/-- A power of a product is the product of the powers. -/
theorem gpow_gmul (a b : Byte) (n : Nat) : gpow (gmul a b) n = gmul (gpow a n) (gpow b n) := by
  induction n with
  | zero => exact (one_gmul 1).symm
  | succ n ih =>
    rw [gpow_succ, gpow_succ, gpow_succ, ih, gmul_assoc, gmul_assoc, ← gmul_assoc b, gmul_comm b, gmul_assoc]

/-- Squaring is linear: the two mixed products cancel. -/
theorem xor_gmul_self (a b : Byte) : gmul (a ^^^ b) (a ^^^ b) = gmul a a ^^^ gmul b b := by
  rw [xor_gmul, gmul_xor, gmul_xor, gmul_comm b a, BitVec.xor_assoc, ← BitVec.xor_assoc (gmul a b), BitVec.xor_self,
    BitVec.zero_xor]

theorem xor_gpow_two_pow (a b : Byte) (k : Nat) : gpow (a ^^^ b) (2 ^ k) = gpow a (2 ^ k) ^^^ gpow b (2 ^ k) := by
  induction k with
  | zero => rw [Nat.pow_zero, gpow_one, gpow_one, gpow_one]
  | succ k ih =>
    rw [Nat.pow_succ, Nat.mul_two, ← gmul_gpow, ← gmul_gpow, ← gmul_gpow, ih, xor_gmul_self]

/-- The power 256 is linear and fixes 1 and 2, so it fixes every byte. -/
theorem gpow_256 (a : Byte) : gpow a 256 = a := by
  induction a using byte_induction with
  | zero => rw [gpow_succ, zero_gmul]
  | double a ih =>
    have two : gpow 2 256 = 2 := by decide +kernel
    rw [← two_gmul, gpow_gmul, two, ih]
  | add_one a ih =>
    have one : gpow 1 256 = 1 := Function.iterate_fixed (one_gmul 1) 256
    have linear : gpow (a ^^^ 1) 256 = gpow a 256 ^^^ gpow 1 256 := xor_gpow_two_pow a 1 8
    rw [linear, ih, one]

/-! ### The inverse -/

/-- `ginv` is the power 254: seven squarings, multiplied together (R93). -/
theorem ginv_eq_gpow (a : Byte) : ginv a = gpow a 254 := by
  have square : gmul a a = gpow a 2 := by rw [← gmul_gpow a 1 1, gpow_one]
  simp only [ginv, square, gmul_gpow, Nat.reduceAdd]

/-- The field has no idempotents but 0 and 1. -/
theorem eq_zero_or_eq_one_of_gmul_self : ∀ {e : Byte}, gmul e e = e → e = 0 ∨ e = 1 := by decide

/-- The power 255 of a byte is its own square, and it is not 0 unless the byte is. -/
theorem gpow_255 {a : Byte} (ha : a ≠ 0) : gpow a 255 = 1 := by
  have last : gmul a (gpow a 255) = a := by rw [← gpow_succ, gpow_256]
  have idempotent : gmul (gpow a 255) (gpow a 255) = gpow a 255 :=
    calc gmul (gpow a 255) (gpow a 255) = gpow a (256 + 254) := gmul_gpow a 255 255
      _ = gmul a (gpow a 254) := by rw [← gmul_gpow, gpow_256]
      _ = gpow a 255 := (gpow_succ a 254).symm
  rcases eq_zero_or_eq_one_of_gmul_self idempotent with zero | one
  · rw [zero, gmul_zero] at last
    exact absurd last.symm ha
  · exact one

/-- A nonzero byte times its inverse is 1 (R93). -/
theorem gmul_ginv {a : Byte} (ha : a ≠ 0) : gmul a (ginv a) = 1 := by
  rw [ginv_eq_gpow, ← gpow_succ, gpow_255 ha]

/-- The inverse is the only byte whose product with `a` is 1 (R93). -/
theorem eq_ginv_of_gmul_eq_one {a b : Byte} (ha : a ≠ 0) (hb : gmul a b = 1) : b = ginv a := by
  calc b = gmul (gmul a (ginv a)) b := by rw [gmul_ginv ha, one_gmul]
    _ = gmul (ginv a) (gmul a b) := by rw [gmul_comm a, gmul_assoc]
    _ = ginv a := by rw [hb, gmul_one]

end Sys2Proof.Machine
end

section
/-! Rotations of a mix table's words by one, two and three bytes (R97, R98). -/

namespace Sys2Proof.Machine

/-- A rotation to the right takes each bit from `n` places above, around the word. -/
theorem getLsbD_rotateRight_word (w : Word) (n : Nat) {i : Nat} (hi : i < 32) :
    (w.rotateRight n).getLsbD i = w.getLsbD ((i + n) % 32) := by
  rw [BitVec.getLsbD_rotateRight]
  by_cases low : i < 32 - n % 32
  · rw [decide_eq_true low, cond_true, show n % 32 + i = (i + n) % 32 by omega]
  · rw [decide_eq_false low, cond_false, decide_eq_true hi, Bool.true_and,
      show i - (32 - n % 32) = (i + n) % 32 by omega]

/-- Two rotations to the right are one by the sum. -/
theorem rotateRight_rotateRight (w : Word) (m n : Nat) : (w.rotateRight m).rotateRight n = w.rotateRight (m + n) := by
  refine BitVec.eq_of_getLsbD_eq fun i hi => ?_
  rw [getLsbD_rotateRight_word _ _ hi, getLsbD_rotateRight_word _ _ (Nat.mod_lt _ (by decide)),
    getLsbD_rotateRight_word _ _ hi, show ((i + n) % 32 + m) % 32 = (i + (m + n)) % 32 by omega]

theorem rotateRight_wordOf_two (a b c d : Byte) : (wordOf a b c d).rotateRight 16 = wordOf c d a b := by
  rw [← rotateRight_rotateRight _ 8 8, rotateRight_wordOf, rotateRight_wordOf]

theorem rotateRight_wordOf_three (a b c d : Byte) : (wordOf a b c d).rotateRight 24 = wordOf b c d a := by
  rw [← rotateRight_rotateRight _ 16 8, rotateRight_wordOf_two, rotateRight_wordOf]

end Sys2Proof.Machine
end

section
/-! The statements about the field and the tables settled. -/

namespace Sys2Proof.Machine

/-- Settles O17: every law by induction along the bits of the first operand, every constant by doubling and adding 1. -/
theorem fieldMultiplicationLawsAndDoublings : Obligations.FieldMultiplicationLawsAndDoublings := by
  intro a b c
  refine ⟨gmul_comm a b, (gmul_assoc a b c).symm, gmul_xor a b c, one_gmul a, zero_gmul a, two_gmul a, ?_, four_gmul a,
    eight_gmul a, ?_, ?_, ?_, ?_⟩
  · rw [show (3 : Byte) = 2 ^^^ 1 from rfl, xor_gmul, two_gmul, one_gmul]
  · rw [show (9 : Byte) = 8 ^^^ 1 from rfl, xor_gmul, one_gmul]
  · rw [show (11 : Byte) = 8 ^^^ 2 ^^^ 1 from rfl, xor_gmul, xor_gmul, one_gmul]
  · rw [show (13 : Byte) = 8 ^^^ 4 ^^^ 1 from rfl, xor_gmul, xor_gmul, one_gmul]
  · rw [show (14 : Byte) = 8 ^^^ 4 ^^^ 2 from rfl, xor_gmul, xor_gmul]

/-- Settles O18: the inverse is unique because `gmul` is associative and commutative, and its squarings add up to the
power 254. -/
theorem fieldInverseIsTheOneInverse : Obligations.FieldInverseIsTheOneInverse := by
  have inverse : ∀ {a b : Byte}, a ≠ 0 → gmul a b = 1 → ginv a = b := fun ha hb => (eq_ginv_of_gmul_eq_one ha hb).symm
  refine ⟨by simp only [ginv, zero_gmul], fun a b ha => ⟨eq_ginv_of_gmul_eq_one ha, fun hb => hb ▸ gmul_ginv ha⟩,
    fun a => ?_, inverse (by decide) (by decide), inverse (by decide) (by decide), inverse (by decide) (by decide)⟩
  calc ginv a = (gmul a)^[253] (gpow a 1) := by rw [ginv_eq_gpow, gpow, gpow, ← Function.iterate_add_apply]
    _ = (gmul a)^[253] a := by rw [gpow_one]

/-- Settles O16: a lookup gives the tabulated byte or word, and the rotation of a word moves its bytes. -/
theorem initBuildsTheAesTables : Obligations.InitBuildsTheAesTables := by
  refine ⟨fun x => ⟨?_, ?_, ?_, ⟨?_, ?_, ?_, ?_⟩, ⟨?_, ?_, ?_, ?_⟩⟩, rfl⟩
  · rw [lookup_init_sbox, sboxByte_eq_affine_ginv]
  · rw [lookup_init_invSbox, invSboxByte_sboxByte]
  · rw [lookup_init_sbox, sboxByte_invSboxByte]
  · rw [lookup_init_subMix_k0, subMixWord]
  · rw [lookup_init_subMix_k1, subMixWord, rotateRight_wordOf]
  · rw [lookup_init_subMix_k2, subMixWord, rotateRight_wordOf_two]
  · rw [lookup_init_subMix_k3, subMixWord, rotateRight_wordOf_three]
  · rw [lookup_init_invSubMix_k0, invSubMixWord]
  · rw [lookup_init_invSubMix_k1, invSubMixWord, rotateRight_wordOf]
  · rw [lookup_init_invSubMix_k2, invSubMixWord, rotateRight_wordOf_two]
  · rw [lookup_init_invSubMix_k3, invSubMixWord, rotateRight_wordOf_three]

end Sys2Proof.Machine
end

section
/-! Key schedules: the rows of the forward and the inverse schedule by their indices (R115, R117), and IMC by field
multiplications (R118). -/

namespace Sys2Proof.Machine

/-! ### The forward schedule -/

/-- A row depends on the row before it and the row Nk before it alone (R115). -/
theorem scheduleRow_congr {tb : Tables} {nk r : Nat} {ks ks' : List Word}
    (previous : ks.getD (r - 1) 0 = ks'.getD (r - 1) 0) (back : ks.getD (r - nk) 0 = ks'.getD (r - nk) 0) :
    scheduleRow tb nk r ks = scheduleRow tb nk r ks' := by
  unfold scheduleRow
  rw [previous, back]

/-- The rows a schedule loop is given come first in what it leaves. -/
theorem getD_scheduleLoop_of_lt (tb : Tables) (nk n : Nat) {ks : List Word} {r : Nat} (hr : r < ks.length) :
    (scheduleLoop tb nk n ks).getD r 0 = ks.getD r 0 := by
  obtain ⟨rest, whole, -⟩ := scheduleLoop_prefix tb nk n ks
  rw [whole, List.getD_append _ _ _ _ hr]

/-- Every row a schedule loop adds is the row of R115 over the rows it leaves. -/
theorem getD_scheduleLoop_of_ge (tb : Tables) {nk : Nat} (hnk : 0 < nk) (n : Nat) {ks : List Word}
    (enough : nk ≤ ks.length) {r : Nat} (hr : ks.length ≤ r) (hr' : r < ks.length + n) :
    (scheduleLoop tb nk n ks).getD r 0 = scheduleRow tb nk r (scheduleLoop tb nk n ks) := by
  induction n generalizing ks with
  | zero => omega
  | succ n ih =>
    have longer : (ks ++ [scheduleRow tb nk ks.length ks]).length = ks.length + 1 := List.length_append
    rcases Nat.eq_or_lt_of_le hr with rfl | later
    · have kept {i : Nat} (hi : i < ks.length) : ks.getD i 0 = (scheduleLoop tb nk (n + 1) ks).getD i 0 :=
        (getD_scheduleLoop_of_lt tb nk (n + 1) hi).symm
      calc (scheduleLoop tb nk (n + 1) ks).getD ks.length 0
          = (ks ++ [scheduleRow tb nk ks.length ks]).getD ks.length 0 :=
            getD_scheduleLoop_of_lt tb nk n (by omega)
        _ = scheduleRow tb nk ks.length ks := by rw [List.getD_append_right _ _ _ _ le_rfl, Nat.sub_self]; rfl
        _ = scheduleRow tb nk ks.length (scheduleLoop tb nk (n + 1) ks) :=
            scheduleRow_congr (kept (by omega)) (kept (by omega))
    · exact ih (by omega) (by omega) (by omega)

/-- The first rows of a schedule are the key words (R115). -/
theorem getD_schedule_of_lt (tb : Tables) {key : List Word} {r : Nat} (hr : r < key.length) :
    (schedule tb key).getD r 0 = key.getD r 0 := getD_scheduleLoop_of_lt tb _ _ hr

/-- Every later row of a schedule is the row of R115 over the schedule itself. -/
theorem getD_schedule_of_ge (tb : Tables) {key : List Word} (hk : 0 < key.length) {r : Nat} (hr : key.length ≤ r)
    (hr' : r < scheduleRows key.length) :
    (schedule tb key).getD r 0 = scheduleRow tb key.length r (schedule tb key) :=
  getD_scheduleLoop_of_ge tb hk _ le_rfl hr (by omega)

/-- SubWord through the table of INIT substitutes each byte by its S-box value (R95, R116). -/
theorem subWord_init (t : Word) : subWord initTables.sbox t = subWordValue t := by
  simp only [subWord, lookup_init_sbox, wordOf_eq_shifts, subWordValue]

/-- A byte shifted to the top of a word. -/
theorem zext32_shiftLeft_24 (b : Byte) : zext32 b <<< 24 = wordOf b 0 0 0 := by
  rw [← wordOf_eq_shifts]
  simp [zext32]

/-- A row with the tables of INIT, by S-box values and the printed round constants (R115, R116). -/
theorem scheduleRow_init (nk r : Nat) (ks : List Word) :
    scheduleRow initTables nk r ks = ks.getD (r - nk) 0 ^^^ scheduleTerm nk r (ks.getD (r - 1) 0) := by
  simp only [scheduleRow, subWord_init, zext32_shiftLeft_24, scheduleTerm]
  rfl

/-! ### The inverse schedule -/

theorem getD_invSchedule (tb : Tables) {ks : List Word} {j : Nat} (hj : j < ks.length) :
    (invSchedule tb ks).getD j 0 = invScheduleRow tb ks ks.length j := by
  rw [List.getD_eq_getElem _ _ (by rwa [length_invSchedule])]
  simp [invSchedule]

/-- Row `4q + c` of the inverse schedule: block `nr - q` of the forward schedule, its columns in the order 0, 3, 2, 1, and
IMC on every block but the first and the last (R117). -/
theorem invScheduleRow_block (tb : Tables) (ks : List Word) {nr q c : Nat} (hq : q ≤ nr) (hc : c < 4) :
    invScheduleRow tb ks (4 * (nr + 1)) (4 * q + c) =
      if q = 0 ∨ q = nr then ks.getD (4 * (nr - q) + (4 - c) % 4) 0
      else imc tb (ks.getD (4 * (nr - q) + (4 - c) % 4) 0) := by
  have outer : (4 * q + c < 4 ∨ 4 * (nr + 1) - (4 * q + c) ≤ 4) ↔ (q = 0 ∨ q = nr) := by omega
  have column : (if (4 * q + c) % 4 ≠ 0 then ks.getD (4 * (nr + 1) - (4 * q + c)) 0
      else ks.getD (4 * (nr + 1) - (4 * q + c) - 4) 0) = ks.getD (4 * (nr - q) + (4 - c) % 4) 0 := by
    split <;> exact congrArg (ks.getD · 0) (by omega)
  simp only [invScheduleRow, column, outer]

/-! ### IMC -/

/-- IMC through the tables indexes them by S-box values (R118). -/
theorem imc_init (t : Word) :
    imc initTables t =
      lookup initTables.invSubMix.k0 (sboxByte (byteAt t 3)) ^^^ lookup initTables.invSubMix.k1 (sboxByte (byteAt t 2)) ^^^
      lookup initTables.invSubMix.k2 (sboxByte (byteAt t 1)) ^^^ lookup initTables.invSubMix.k3 (sboxByte (byteAt t 0)) := by
  simp only [imc, lookup_init_sbox, setWidth_zext32]

/-- IMC is InvMixColumns of one column, its top byte in row 0 (R118). -/
theorem imc_wordOf (a0 a1 a2 a3 : Byte) :
    imc initTables (wordOf a0 a1 a2 a3) = wordOf
      (gmul 14 a0 ^^^ gmul 11 a1 ^^^ gmul 13 a2 ^^^ gmul 9 a3)
      (gmul 9 a0 ^^^ gmul 14 a1 ^^^ gmul 11 a2 ^^^ gmul 13 a3)
      (gmul 13 a0 ^^^ gmul 9 a1 ^^^ gmul 14 a2 ^^^ gmul 11 a3)
      (gmul 11 a0 ^^^ gmul 13 a1 ^^^ gmul 9 a2 ^^^ gmul 14 a3) := by
  have column (a : Byte) :
      invSubMixWord (sboxByte a) = wordOf (gmul 14 a) (gmul 9 a) (gmul 13 a) (gmul 11 a) := by
    rw [invSubMixWord, invSboxByte_sboxByte]
  simp only [imc_init, byteAt_wordOf_three, byteAt_wordOf_two, byteAt_wordOf_one, byteAt_wordOf_zero,
    lookup_init_invSubMix_k0, lookup_init_invSubMix_k1, lookup_init_invSubMix_k2, lookup_init_invSubMix_k3, column,
    rotateRight_wordOf, rotateRight_wordOf_two, rotateRight_wordOf_three, wordOf_xor]

/-- IMC is linear (R118). -/
theorem imc_xor (a b : Word) : imc initTables (a ^^^ b) = imc initTables a ^^^ imc initTables b := by
  rw [← wordOf_byteAt a, ← wordOf_byteAt b, wordOf_xor, imc_wordOf, imc_wordOf, imc_wordOf, wordOf_xor]
  simp only [gmul_xor]
  congr 1 <;> ac_rfl

theorem imc_zero : imc initTables 0 = 0 := by
  simpa using imc_xor 0 0

end Sys2Proof.Machine
end

section
/-! EXPANDKEY: what it answers in each case (R110 to R113), and the key state that belongs to a key (R27, R114). -/

namespace Sys2Proof.Machine

/-! ### The key operand -/

/-- The model's test of KEYLEN is R111. -/
theorem State.validKey_iff (s : State) : s.validKey ↔ keyLengthValid s.keylen = true := (keyLengthValid_iff _).symm

/-- A valid key operand has four, six or eight words (R112). -/
theorem State.validKey.words {s : State} (h : s.validKey) : s.keylen / 4 = 4 ∨ s.keylen / 4 = 6 ∨ s.keylen / 4 = 8 := by
  rcases h with h | h | h <;> omega

theorem getD_keyOperand {s : State} {i : Nat} (hi : i < s.keylen / 4) :
    (keyOperand s).getD i 0 = be32 s.keyin.toList i := by
  rw [List.getD_eq_getElem _ _ (by rwa [length_keyOperand])]
  simp [keyOperand]

/-- Lists of one length with equal entries are equal. -/
theorem eq_of_getD_eq {α : Type} {l l' : List α} (d : α) (hl : l.length = l'.length)
    (h : ∀ i < l.length, l.getD i d = l'.getD i d) : l = l' := by
  refine List.ext_getElem hl fun i hi hi' => ?_
  rw [← List.getD_eq_getElem _ d hi, ← List.getD_eq_getElem _ d hi', h i hi]

/-- The key operand is read from the bytes below KEYLEN alone (R112). -/
theorem keyOperand_congr {s s' : State} (hl : s.keylen = s'.keylen)
    (h : ∀ i < s.keylen, s.keyin.toList.getD i 0 = s'.keyin.toList.getD i 0) : keyOperand s = keyOperand s' := by
  refine eq_of_getD_eq 0 (by simp [hl]) fun i hi => ?_
  rw [length_keyOperand] at hi
  rw [getD_keyOperand hi, getD_keyOperand (hl ▸ hi), be32, be32, h _ (by omega), h _ (by omega), h _ (by omega),
    h _ (by omega)]

theorem KeyState.length_words {k : KeyState} (h : k.keySize ≤ Config.keyCapacity) : k.words.length = k.keySize := by
  rw [KeyState.words, List.length_take, Vector.length_toList, Nat.min_eq_left h]

/-- The words of KEY are its first KEYSIZE cells (R25). -/
theorem KeyState.getD_words (k : KeyState) {i : Nat} (hi : i < k.keySize) :
    k.words.getD i 0 = k.keyCells.toList.getD i 0 := by
  rw [KeyState.words, List.getD_eq_getElem?_getD, List.getD_eq_getElem?_getD, List.getElem?_take_of_lt hi]

/-- The model's same-key test on a valid key operand is R113. -/
theorem sameKey_keyOperand_iff {s : State} (hv : s.validKey) :
    sameKey s.key (keyOperand s) = true ↔ s.holdsKey := by
  have operand (size : s.keylen / 4 = s.key.keySize) :
      keyOperand s = s.key.words ↔
        ∀ i < s.key.keySize, be32 s.keyin.toList i = s.key.keyCells.toList.getD i 0 := by
    have fits : s.key.keySize ≤ Config.keyCapacity := by
      have := hv.words
      rw [Config.keyCapacity]
      omega
    constructor
    · intro same i hi
      rw [← getD_keyOperand (size ▸ hi), same, s.key.getD_words hi]
    · intro words
      refine eq_of_getD_eq 0 (by rw [length_keyOperand, KeyState.length_words fits, size]) fun i hi => ?_
      rw [length_keyOperand] at hi
      rw [getD_keyOperand hi, s.key.getD_words (size ▸ hi), words i (size ▸ hi)]
  simp only [sameKey, length_keyOperand, Bool.and_eq_true, beq_iff_eq, State.holdsKey]
  exact and_congr_right operand

/-! ### EXPANDKEY, case by case -/

theorem execExpandkey_of_invalid {s : State} (hd : s.destroyed = false) (hv : ¬ s.validKey) :
    execExpandkey s = .next { s with err := errInvalidKeySize } := by
  rw [s.validKey_iff] at hv
  simp [execExpandkey, hd, hv, raiseError]

theorem execExpandkey_of_holdsKey {s : State} (hd : s.destroyed = false) (hv : s.validKey) (hh : s.holdsKey) :
    execExpandkey s = .next { s with err := 0 } := by
  have same := (sameKey_keyOperand_iff hv).mpr hh
  rw [s.validKey_iff] at hv
  simp [execExpandkey, hd, hv, same, complete]

theorem execExpandkey_of_newKey {s : State} (hd : s.destroyed = false) (hv : s.validKey) (hh : ¬ s.holdsKey) :
    execExpandkey s = .next { expandKey (keyOperand s) s with err := 0 } := by
  have other := mt (sameKey_keyOperand_iff hv).mp hh
  rw [s.validKey_iff] at hv
  simp [execExpandkey, hd, hv, other, complete]

/-! ### The key state of a key -/

/-- The five items of the key state are those of `key`: KEY, KEYSIZE, KSROWS and the two schedules (R27, R114). -/
structure KeyState.IsOf (tb : Tables) (key : List Word) (k : KeyState) : Prop where
  words   : k.words = key
  keySize : k.keySize = key.length
  ksRows  : k.ksRows = scheduleRows key.length
  ks      : k.ks = schedule tb key
  invks   : k.invks = invSchedule tb (schedule tb key)

/-- A derived key state that is not empty is the key state of its KEY. -/
theorem KeyState.derived.isOf {tb : Tables} {k : KeyState} (h : k.derived tb) (hk : k.keySize ≠ 0) :
    k.IsOf tb k.words := by
  rcases h with ⟨empty, -⟩ | ⟨size, rows, hks, hinv⟩
  · exact absurd empty hk
  · have length : k.keySize = k.words.length := by
      simp only [KeyState.words, List.length_take, Vector.length_toList, Config.keyCapacity]
      omega
    exact ⟨rfl, length, length ▸ rows, hks, hks ▸ hinv⟩

/-- A full expansion of a key leaves the key state of that key, whatever the cells held before (R114). -/
theorem expandedKey_isOf (tb : Tables) (k : KeyState) {key : List Word}
    (h : key.length = 4 ∨ key.length = 6 ∨ key.length = 8) : (expandedKey tb k key).IsOf tb key := by
  obtain ⟨words, derived⟩ := expandedKey_derived tb k h
  have size : (expandedKey tb k key).keySize ≠ 0 := show key.length ≠ 0 by omega
  have isOf := derived.isOf size
  rwa [words] at isOf

/-- In a state of the invariant that holds the key of its operand, the key state is that of the operand (R113). -/
theorem State.Inv.key_isOf_keyOperand {s : State} (hs : s.Inv) (hv : s.validKey) (hh : s.holdsKey) :
    s.key.IsOf s.tables (keyOperand s) := by
  have same := (sameKey_keyOperand_iff hv).mpr hh
  simp only [sameKey, length_keyOperand, Bool.and_eq_true, beq_iff_eq] at same
  obtain ⟨size, words⟩ := same
  have loaded : s.key.keySize ≠ 0 := by
    have := hv.words
    omega
  exact words ▸ hs.derived.isOf loaded

/-- An EXPANDKEY that ends with ERR = 0 from a state of the invariant leaves the tables of INIT and the key state of its
key operand, expanded or short-circuited (R113, R114). -/
theorem execExpandkey_isOf {s t : State} (hs : s.Inv) (h : execExpandkey s = .next t) (ok : t.err = 0) :
    s.validKey ∧ t.tables = initTables ∧ t.key.IsOf initTables (keyOperand s) := by
  obtain ⟨hd, ⟨-, rfl⟩ | ⟨valid, same, rfl⟩ | ⟨valid, -, rfl⟩⟩ := execExpandkey_next h
  · exact absurd (show errInvalidKeySize = 0 from ok) (by decide)
  · have hv := s.validKey_iff.mpr valid
    exact ⟨hv, hs.tables hd, hs.tables hd ▸ hs.key_isOf_keyOperand hv ((sameKey_keyOperand_iff hv).mp same)⟩
  · have hv := s.validKey_iff.mpr valid
    exact ⟨hv, hs.tables hd, hs.tables hd ▸ expandedKey_isOf s.tables s.key ((length_keyOperand s).symm ▸ hv.words)⟩

end Sys2Proof.Machine
end

section
/-! The block datapath against the standard's inverse cipher (R134 to R138, R142). A quad is a cipher state by columns; the
datapath holds its columns in the order 0, 3, 2, 1, in which every step of it is a step of the standard. -/

namespace Sys2Proof.Machine

/-! ### The standard's steps on columns -/

/-- Round key `q` of a schedule, by columns. -/
def scheduleQuad (ks : List Word) (q : Nat) : Quad :=
  ⟨ks.getD (4 * q) 0, ks.getD (4 * q + 1) 0, ks.getD (4 * q + 2) 0, ks.getD (4 * q + 3) 0⟩

/-- A column whose row `r` is the inverse S-box value of row `r` of the `r`-th column given. -/
def invSubColumn (a b c d : Word) : Word :=
  wordOf (invSboxByte (byteAt a 3)) (invSboxByte (byteAt b 2)) (invSboxByte (byteAt c 1)) (invSboxByte (byteAt d 0))

/-- InvShiftRows and InvSubBytes. -/
def Quad.invShiftSub (p : Quad) : Quad :=
  ⟨invSubColumn p.w0 p.w3 p.w2 p.w1, invSubColumn p.w1 p.w0 p.w3 p.w2, invSubColumn p.w2 p.w1 p.w0 p.w3,
    invSubColumn p.w3 p.w2 p.w1 p.w0⟩

/-- InvMixColumns. -/
def Quad.invMix (p : Quad) : Quad :=
  ⟨imc initTables p.w0, imc initTables p.w1, imc initTables p.w2, imc initTables p.w3⟩

@[simp] theorem permute_permute (p : Quad) : p.permute.permute = p := rfl

theorem permute_xor (p k : Quad) : p.permute.xor k.permute = (p.xor k).permute := rfl

theorem invMix_xor (p k : Quad) : (p.xor k).invMix = p.invMix.xor k.invMix := by
  simp only [Quad.invMix, Quad.xor, imc_xor]

theorem roundKey_eq (ks : List Word) (q : Nat) : roundKey ks q = (scheduleQuad ks q).bytes := rfl

theorem addRoundKey_bytes (p k : Quad) : addRoundKey k.bytes p.bytes = (p.xor k).bytes := by
  simp only [Quad.bytes, Quad.xor, byteAt_xor]
  rfl

theorem invSubBytes_invShiftRows_bytes (p : Quad) : invSubBytes (invShiftRows p.bytes) = p.invShiftSub.bytes := by
  simp only [Quad.bytes, Quad.invShiftSub, invSubColumn, byteAt_wordOf_three, byteAt_wordOf_two, byteAt_wordOf_one,
    byteAt_wordOf_zero]
  rfl

/-- The bytes of IMC of a word, in the order of the sums of R142. -/
theorem imc_eq (w : Word) :
    imc initTables w = wordOf
      (gmul 14 (byteAt w 3) ^^^ gmul 11 (byteAt w 2) ^^^ gmul 13 (byteAt w 1) ^^^ gmul 9 (byteAt w 0))
      (gmul 14 (byteAt w 2) ^^^ gmul 11 (byteAt w 1) ^^^ gmul 13 (byteAt w 0) ^^^ gmul 9 (byteAt w 3))
      (gmul 14 (byteAt w 1) ^^^ gmul 11 (byteAt w 0) ^^^ gmul 13 (byteAt w 3) ^^^ gmul 9 (byteAt w 2))
      (gmul 14 (byteAt w 0) ^^^ gmul 11 (byteAt w 3) ^^^ gmul 13 (byteAt w 2) ^^^ gmul 9 (byteAt w 1)) := by
  conv_lhs => rw [← wordOf_byteAt w, imc_wordOf]
  congr 1 <;> ac_rfl

theorem invMixColumns_bytes (p : Quad) : invMixColumns p.bytes = p.invMix.bytes := by
  simp only [Quad.bytes, Quad.invMix, imc_eq, byteAt_wordOf_three, byteAt_wordOf_two, byteAt_wordOf_one,
    byteAt_wordOf_zero]
  rfl

/-! ### The datapath's steps on columns in the order 0, 3, 2, 1 -/

/-- The lookups of a full round are IMC of the inverse S-box values (R98, R118, R135). -/
theorem mixLookup_init (a b c d : Word) : mixLookup initTables.invSubMix a b c d = imc initTables (invSubColumn a b c d) := by
  simp only [imc_init, invSubColumn, byteAt_wordOf_three, byteAt_wordOf_two, byteAt_wordOf_one, byteAt_wordOf_zero,
    sboxByte_invSboxByte, mixLookup]

theorem subLookup_init (a b c d : Word) : subLookup initTables.invSbox a b c d = invSubColumn a b c d := by
  simp only [subLookup, lookup_init_invSbox, wordOf_eq_shifts, invSubColumn]

/-- A full round is InvShiftRows, InvSubBytes, InvMixColumns and the round key (R135). -/
theorem fullRound_permute (rk p : Quad) :
    fullRound initTables.invSubMix rk.permute p.permute = (p.invShiftSub.invMix.xor rk).permute := by
  simp only [fullRound, mixLookup_init]
  rfl

/-- The final round has no InvMixColumns (R136). -/
theorem finalRound_permute (rk p : Quad) :
    finalRound initTables.invSbox rk.permute p.permute = (p.invShiftSub.xor rk).permute := by
  simp only [finalRound, subLookup_init]
  rfl

/-! ### The rows of INVKS -/

theorem invksRow_eq_getD {k : KeyState} {j : Nat} (hj : j < k.ksRows) : invksRow k j = k.invks.getD j 0 := by
  rw [invksRow, KeyState.invks, List.getD_eq_getElem?_getD, List.getD_eq_getElem?_getD, List.getElem?_take_of_lt hj]

/-- Four rows of INVKS that are the columns of `p` in the order 0, 3, 2, 1. -/
theorem invksQuad_eq_permute {k : KeyState} {i : Nat} {p : Quad} (h0 : invksRow k i = p.w0)
    (h1 : invksRow k (i + 1) = p.w3) (h2 : invksRow k (i + 2) = p.w2) (h3 : invksRow k (i + 3) = p.w1) :
    invksQuad k i = p.permute := by
  rw [invksQuad, h0, h1, h2, h3, Quad.permute]

section
variable {k : KeyState} {key : List Word}

theorem KeyState.IsOf.invksRow_eq (h : k.IsOf initTables key) {q c : Nat} (hq : q ≤ roundCount k) (hc : c < 4) :
    invksRow k (4 * q + c) =
      if q = 0 ∨ q = roundCount k then (schedule initTables key).getD (4 * (roundCount k - q) + (4 - c) % 4) 0
      else imc initTables ((schedule initTables key).getD (4 * (roundCount k - q) + (4 - c) % 4) 0) := by
  have rows : k.ksRows = 4 * (roundCount k + 1) := by
    rw [h.ksRows, ← h.keySize, scheduleRows, Nat.mul_comm, roundCount]
  have length : (schedule initTables key).length = 4 * (roundCount k + 1) := by
    rw [length_schedule, ← h.ksRows, rows]
  rw [invksRow_eq_getD (by omega), h.invks, getD_invSchedule _ (by omega), length, invScheduleRow_block _ _ hq hc]

/-- The first and the last block of INVKS are the last and the first round key in the datapath's order (R117). -/
theorem KeyState.IsOf.invksQuad_outer (h : k.IsOf initTables key) {q : Nat} (hq : q = 0 ∨ q = roundCount k) :
    invksQuad k (4 * q) = (scheduleQuad (schedule initTables key) (roundCount k - q)).permute := by
  have row (c : Nat) (hc : c < 4) := (h.invksRow_eq (q := q) (by omega) hc).trans (if_pos hq)
  exact invksQuad_eq_permute (row 0 (by decide)) (row 1 (by decide)) (row 2 (by decide)) (row 3 (by decide))

/-- An interior block of INVKS is a round key through InvMixColumns in the datapath's order (R117). -/
theorem KeyState.IsOf.invksQuad_inner (h : k.IsOf initTables key) {q : Nat} (pos : 0 < q) (hq : q < roundCount k) :
    invksQuad k (4 * q) = (scheduleQuad (schedule initTables key) (roundCount k - q)).invMix.permute := by
  have row (c : Nat) (hc : c < 4) := (h.invksRow_eq (Nat.le_of_lt hq) hc).trans (if_neg (by omega))
  exact invksQuad_eq_permute (row 0 (by decide)) (row 1 (by decide)) (row 2 (by decide)) (row 3 (by decide))

/-! ### The whole block -/

/-- The last `n` full rounds are the standard's rounds `n` to 1 (R135, R142). -/
theorem KeyState.IsOf.fullRounds_bytes (h : k.IsOf initTables key) {n : Nat} (hn : n < roundCount k) (p : Quad) :
    (fullRounds initTables.invSubMix k n (4 * (roundCount k - n)) p.permute).permute.bytes =
      invRounds (schedule initTables key) n p.bytes := by
  induction n generalizing p with
  | zero => rfl
  | succ n ih =>
    have rk : invksQuad k (4 * (roundCount k - (n + 1))) =
        (scheduleQuad (schedule initTables key) (n + 1)).invMix.permute := by
      rw [h.invksQuad_inner (by omega) (by omega), Nat.sub_sub_self (Nat.le_of_lt hn)]
    rw [fullRounds, rk, fullRound_permute, ← invMix_xor,
      show 4 * (roundCount k - (n + 1)) + 4 = 4 * (roundCount k - n) by omega, ih (by omega), invRounds, roundKey_eq,
      invSubBytes_invShiftRows_bytes, addRoundKey_bytes, invMixColumns_bytes]

/-- THE BLOCK REFINEMENT: with the tables of INIT and the key state of `key`, the datapath computes the standard's inverse
cipher (R141, R142). -/
theorem KeyState.IsOf.cipherBlock_bytes (h : k.IsOf initTables key) (w : Quad) :
    (cipherBlock initTables k w).bytes = invCipher (schedule initTables key) (roundCount k) w.bytes := by
  have first : invksQuad k 0 = (scheduleQuad (schedule initTables key) (roundCount k)).permute :=
    h.invksQuad_outer (q := 0) (.inl rfl)
  have last : invksQuad k (4 * roundCount k) = (scheduleQuad (schedule initTables key) 0).permute := by
    rw [h.invksQuad_outer (.inr rfl), Nat.sub_self]
  have rounds : (roundsOf initTables k w).permute.bytes = invRounds (schedule initTables key) (roundCount k - 1)
      (w.xor (scheduleQuad (schedule initTables key) (roundCount k))).bytes := by
    have := h.fullRounds_bytes (n := roundCount k - 1) (by rw [roundCount]; omega)
      (w.xor (scheduleQuad (schedule initTables key) (roundCount k)))
    rwa [show 4 * (roundCount k - (roundCount k - 1)) = 4 by rw [roundCount]; omega, ← permute_xor, ← first] at this
  rw [cipherBlock, finalOf, last, ← permute_permute (roundsOf initTables k w), finalRound_permute, permute_permute,
    ← addRoundKey_bytes, ← invSubBytes_invShiftRows_bytes, rounds, ← addRoundKey_bytes]
  rfl

end

end Sys2Proof.Machine
end

section
/-! DECRYPT against the standard: what a DECRYPT that is defined answers, its operands as byte strings, and OUT as the
CBC decryption (R139 to R142). -/

namespace Sys2Proof.Machine

/-! ### DECRYPT answers, and STRIP keeps the bytes it leaves in OUT -/

theorem execDecrypt_of_inContract {s : State} (strip : Bool) (hd : s.destroyed = false) (hc : s.inContract) :
    execDecrypt strip s = .next { releaseWork (stripIf strip (decryptBlocks s)) with err := 0 } := by
  simp [execDecrypt, hd, (bufferContract_iff s).mpr hc, complete]

theorem read_stripIf {strip : Bool} {s : State} {a : Nat} (h : a < (stripIf strip s).outLen) :
    (stripIf strip s).outMem.read a = s.outMem.read a := by
  unfold stripIf unpad at *
  split_ifs at * with hs hl
  · rfl
  · rw [Memory.read_truncate, if_pos h]
  · rfl

theorem decryptBlocks_of_key {s : State} (h : s.key.keySize ≠ 0) :
    decryptBlocks s = blockLoop (blockCount s) (startDecrypt s) := if_neg h

/-! ### The operands as byte strings -/

theorem getD_xor_bytes (p q : Quad) {j : Nat} (hj : j < 16) :
    (p.xor q).bytes.getD j 0 = p.bytes.getD j 0 ^^^ q.bytes.getD j 0 := by
  simp only [Quad.xor, Quad.bytes, byteAt_xor]
  interval_cases j <;> rfl

/-- A block of words is its sixteen bytes in rising order (R55, R133). -/
theorem readBlock_bytes (m : Memory) (a : Nat) : (readBlock m a).bytes = m.readBytes a 16 := by
  simp only [readBlock, Memory.readWord, Quad.bytes, byteAt_wordOf_three, byteAt_wordOf_two, byteAt_wordOf_one,
    byteAt_wordOf_zero]
  rfl

/-- The IV operand is the sixteen bytes of IVIN (R132). -/
theorem ivOperand_bytes (s : State) : (ivOperand s).bytes = s.ivin.toList := by
  simp only [ivOperand, be32, Quad.bytes, byteAt_wordOf_three, byteAt_wordOf_two, byteAt_wordOf_one, byteAt_wordOf_zero]
  refine eq_of_getD_eq 0 (Vector.length_toList).symm fun j hj => ?_
  have bound : j < 16 := hj
  interval_cases j <;> rfl

/-- The chain value of a block is the ciphertext block before it, the IV for the first (R139, R141). -/
theorem chainOf_startDecrypt_bytes (s : State) (i : Nat) : (chainOf (startDecrypt s) i).bytes = s.chained i := by
  cases i with
  | zero => exact ivOperand_bytes s
  | succ i => exact readBlock_bytes _ _

/-! ### OUT -/

/-- Byte `j` of block `i` after the block loop (R138, R140). -/
theorem read_blockLoop_block {s : State} (h : s.outMem.wf) {n i j : Nat} (hi : i < n) (hj : j < 16) :
    (blockLoop n s).outMem.read (s.work.off + 16 * i + j) = (plainOf s i).bytes.getD j 0 := by
  rw [read_blockLoop h, if_pos (by omega), show (s.work.off + 16 * i + j - s.work.off) / 16 = i by omega,
    show (s.work.off + 16 * i + j - s.work.off) % 16 = j by omega]

/-- A plaintext block is the standard's inverse cipher of its ciphertext block, XORed with the block before it (R141). -/
theorem getD_plainOf_startDecrypt {s : State} {key : List Word} (tables : s.tables = initTables)
    (hk : s.key.IsOf initTables key) (i : Nat) {j : Nat} (hj : j < 16) :
    (plainOf (startDecrypt s) i).bytes.getD j 0 =
      (invCipher (schedule initTables key) (roundCount s.key) (s.ciphertext i)).getD j 0 ^^^ (s.chained i).getD j 0 := by
  rw [plainOf, getD_xor_bytes _ _ hj, chainOf_startDecrypt_bytes, startDecrypt_tables, startDecrypt_key, tables,
    hk.cipherBlock_bytes, readBlock_bytes]
  rfl

/-- With the tables of INIT and the key state of a key, DECRYPT and DECRYPT.S in contract complete, and OUT is the standard
CBC decryption under the schedule of that key (R141). -/
theorem execDecrypt_isStandardCbc {s : State} {key : List Word} (strip : Bool) (hd : s.destroyed = false)
    (hc : s.inContract) (tables : s.tables = initTables) (hk : s.key.IsOf initTables key) (loaded : s.key.keySize ≠ 0) :
    ∃ t, execDecrypt strip s = .next t ∧ (strip = false → t.outLen = s.inLen) ∧
      isStandardCbc s t s.key.keySize (schedule initTables key) := by
  refine ⟨_, execDecrypt_of_inContract strip hd hc, ?_, ?_⟩
  · rintro rfl
    exact decryptBlocks_outLen s
  · intro i j hi hj ha
    calc readOut (s.offset + 16 * i + j) { releaseWork (stripIf strip (decryptBlocks s)) with err := 0 }
        = some ((stripIf strip (decryptBlocks s)).outMem.read (s.offset + 16 * i + j)) := if_pos ha
      _ = some ((blockLoop (blockCount s) (startDecrypt s)).outMem.read (s.offset + 16 * i + j)) := by
          rw [read_stripIf ha, decryptBlocks_of_key loaded]
      _ = some ((plainOf (startDecrypt s) i).bytes.getD j 0) :=
          congrArg some (read_blockLoop_block (s := startDecrypt s) Memory.wf_nil hi hj)
      _ = some ((invCipher (schedule initTables key) (s.key.keySize + 6) (s.ciphertext i)).getD j 0 ^^^
            (s.chained i).getD j 0) := congrArg some (getD_plainOf_startDecrypt tables hk i hj)

end Sys2Proof.Machine
end

section
/-! The statements about EXPANDKEY and the key schedule settled. -/

namespace Sys2Proof.Machine

/-- Settles O19: the test of KEYLEN comes first, and an invalid length raises InvalidKeySize. -/
theorem invalidKeyLengthFailsAndKeepsEverything : Obligations.InvalidKeyLengthFailsAndKeepsEverything :=
  fun _ hd hv => execExpandkey_of_invalid hd hv

/-- Settles O20: the same-key test succeeds, and the command completes with nothing expanded. -/
theorem sameKeyIsShortCircuited : Obligations.SameKeyIsShortCircuited :=
  fun _ hd hv hh => execExpandkey_of_holdsKey hd hv hh

/-- Settles O21: the key state before and the one expanded anew are both the key state of the key operand. -/
theorem shortCircuitLeavesWhatRecomputationWould : Obligations.ShortCircuitLeavesWhatRecomputationWould := by
  intro s hs _ hv hh
  have held := hs.key_isOf_keyOperand hv hh
  have anew := expandedKey_isOf s.tables s.key (key := keyOperand s) ((length_keyOperand s).symm ▸ hv.words)
  exact ⟨anew.words.trans held.words.symm, anew.keySize.trans held.keySize.symm, anew.ksRows.trans held.ksRows.symm,
    anew.ks.trans held.ks.symm, anew.invks.trans held.invks.symm⟩

/-- Settles O22: the key state is the one of the key operand, whose words are read big-endian. -/
theorem newKeyIsExpanded : Obligations.NewKeyIsExpanded := by
  intro s hd hv hh
  have key := expandedKey_isOf s.tables s.key (key := keyOperand s) ((length_keyOperand s).symm ▸ hv.words)
  refine ⟨expandedKey s.tables s.key (keyOperand s), execExpandkey_of_newKey hd hv hh, length_keyOperand s, rfl, ?_,
    fun i hi => ?_, ?_, ?_⟩
  · rw [key.words, key.keySize]
  · rw [key.keySize, length_keyOperand] at hi
    rw [key.words, getD_keyOperand hi, be32]
  · rw [key.ks, key.ksRows, length_schedule]
  · rw [key.invks, key.ksRows, length_invSchedule, length_schedule]

/-- Settles O23: KS is the schedule of the key operand, and its rows with the tables of INIT are those of R115. -/
theorem forwardScheduleFollowsTheRecurrence : Obligations.ForwardScheduleFollowsTheRecurrence := by
  intro s t hs h ok nk
  obtain ⟨hv, -, key⟩ := execExpandkey_isOf hs h ok
  have length : (keyOperand s).length = nk := length_keyOperand s
  have pos : 0 < nk := by have := hv.words; omega
  rw [key.ks]
  refine ⟨fun r hr => ?_, fun r hr hr' => ?_⟩
  · rw [getD_schedule_of_lt _ (length ▸ hr), getD_keyOperand hr]
  · rw [getD_schedule_of_ge _ (length ▸ pos) (length ▸ hr) (length ▸ hr'), scheduleRow_init, length]

/-- Settles O24: INVKS is the inverse schedule of KS, block by block. -/
theorem inverseScheduleIsTheReorderedOne : Obligations.InverseScheduleIsTheReorderedOne := by
  intro s t hs h ok nr q hq c hc
  obtain ⟨-, -, key⟩ := execExpandkey_isOf hs h ok
  have rows : (schedule initTables (keyOperand s)).length = 4 * (nr + 1) := by
    rw [length_schedule, length_keyOperand, scheduleRows, Nat.mul_comm]
  rw [key.ks, key.invks, getD_invSchedule _ (by omega), rows, invScheduleRow_block _ _ hq hc]

/-- Settles O25, by the columns of the mix tables; linearity comes from that of multiplication. -/
theorem imcIsInvMixColumns : Obligations.ImcIsInvMixColumns :=
  ⟨imc_wordOf, imc_init, imc_xor, imc_zero, by decide +kernel, by decide +kernel, by decide +kernel⟩

/-- Settles O26: each key state is the one of its key operand, and the key operands are equal. -/
theorem keyStateDependsOnTheKeyAlone : Obligations.KeyStateDependsOnTheKeyAlone := by
  intro s s' t t' hs hs' hl hb h h' ok ok'
  obtain ⟨-, -, key⟩ := execExpandkey_isOf hs h ok
  obtain ⟨-, -, key'⟩ := execExpandkey_isOf hs' h' ok'
  rw [keyOperand_congr hl hb] at key
  exact ⟨key.words.trans key'.words.symm, key.keySize.trans key'.keySize.symm, key.ksRows.trans key'.ksRows.symm,
    key.ks.trans key'.ks.symm, key.invks.trans key'.invks.symm⟩

/-- Settles O32: a successful EXPANDKEY leaves the tables of INIT and the key state of its operand, and from these every
block of a DECRYPT is the standard's. -/
theorem expandedKeyDecryptsByTheStandard : Obligations.ExpandedKeyDecryptsByTheStandard := by
  intro s t u strip hs h ok sameTables sameKeyState hd hc
  obtain ⟨hv, tables, key⟩ := execExpandkey_isOf hs h ok
  rw [← sameTables] at tables
  rw [← sameKeyState] at key
  have size : u.key.keySize = s.keylen / 4 := key.keySize.trans (length_keyOperand s)
  have loaded : u.key.keySize ≠ 0 := by
    have := hv.words
    omega
  exact size ▸ execDecrypt_isStandardCbc strip hd hc tables key loaded

end Sys2Proof.Machine
end

section
/-! What a DECRYPT leaves: OUT_LEN, the bytes of OUT, and what OUT depends on (R140 to R146). -/

namespace Sys2Proof.Machine

/-! ### OUT_LEN, the bytes within it, and ERR -/

theorem execDecrypt_of_not_inContract {s : State} (strip : Bool) (hd : s.destroyed = false) (hc : ¬ s.inContract) :
    execDecrypt strip s = .refused .bufferContract := by
  simp [execDecrypt, hd, mt (bufferContract_iff s).mp hc]

/-- UNPAD takes as many bytes off as the last byte says, down to none left (R150 to R153). -/
theorem unpad_outLen (s : State) : (unpad s).outLen = s.outLen - (s.outMem.read (s.outLen - 1)).toNat := by
  unfold unpad strippedLength
  split_ifs
  · omega
  · exact (Nat.sub_eq_zero_of_le (by omega)).symm
  · rfl

theorem execDecrypt_err {strip : Bool} {s t : State} (h : execDecrypt strip s = .next t) : t.err = 0 := by
  rw [execDecrypt_frame h]

/-- DECRYPT leaves OUT_LEN = IN_LEN (R140). -/
theorem execDecrypt_outLen {s t : State} (h : execDecrypt false s = .next t) : t.outLen = s.inLen := by
  obtain ⟨-, -, rfl⟩ := execDecrypt_next h
  exact decryptBlocks_outLen s

/-- DECRYPT.S shortens OUT_LEN by the last byte that the blocks left (R145, R151). -/
theorem execDecrypt_strip_outLen {s t : State} (h : execDecrypt true s = .next t) :
    t.outLen = s.inLen - ((decryptBlocks s).outMem.read (s.inLen - 1)).toNat := by
  obtain ⟨-, -, rfl⟩ := execDecrypt_next h
  rw [← decryptBlocks_outLen s]
  exact unpad_outLen (decryptBlocks s)

/-- Within OUT_LEN a byte of OUT is the one the blocks left, in both forms (R145, R151). -/
theorem execDecrypt_out_of_lt {strip : Bool} {s t : State} (h : execDecrypt strip s = .next t) {a : Nat}
    (ha : a < t.outLen) : t.out a = some ((decryptBlocks s).outMem.read a) := by
  obtain ⟨-, -, rfl⟩ := execDecrypt_next h
  rw [State.out, readOut_some ha]
  exact congrArg some (read_stripIf ha)

/-- OUT has a byte at exactly the addresses below OUT_LEN (R50). -/
theorem State.out_isSome_iff (s : State) (a : Nat) : (s.out a).isSome = true ↔ a < s.outLen := by
  by_cases h : a < s.outLen <;> simp [State.out, readOut, h]

/-! ### OUT in closed form -/

@[simp] theorem length_freeBytes (n k : Nat) : (freeBytes n k).length = k := by
  simp [freeBytes]

theorem getD_freeBytes (n : Nat) {k i : Nat} (hi : i < k) : (freeBytes n k).getD i 0 = Config.freeByte (n + i) := by
  simp [freeBytes, hi]

theorem decryptBlocks_of_noKey {s : State} (h : s.key.keySize = 0) :
    decryptBlocks s = garbageBlocks (startDecrypt s) := if_pos h

/-- The bytes below OFFSET, and those at and above IN_LEN, hold the zero fill (R140). -/
theorem read_decryptBlocks_outside {s : State} (hc : s.inContract) {a : Nat} (ha : a < s.offset ∨ s.inLen ≤ a) :
    (decryptBlocks s).outMem.read a = 0x00 := by
  have fits := offset_add_blockCount_le ((bufferContract_iff s).mpr hc)
  obtain ⟨le, -⟩ := hc
  rcases eq_or_ne s.key.keySize 0 with noKey | loaded
  · rw [decryptBlocks_of_noKey noKey]
    exact Memory.read_writeBytes_outside Memory.wf_nil _ _ (by simp; omega)
  · rw [decryptBlocks_of_key loaded, read_blockLoop (s := startDecrypt s) Memory.wf_nil, startDecrypt_work,
      if_neg (by simp only; omega)]
    rfl

/-- With a key loaded, byte `j` of block `i` is that of the plaintext block (R141). -/
theorem read_decryptBlocks_block {s : State} (loaded : s.key.keySize ≠ 0) {i j : Nat} (hi : i < blockCount s)
    (hj : j < 16) :
    (decryptBlocks s).outMem.read (s.offset + 16 * i + j) = (plainOf (startDecrypt s) i).bytes.getD j 0 := by
  rw [decryptBlocks_of_key loaded]
  exact read_blockLoop_block (s := startDecrypt s) Memory.wf_nil hi hj

/-- With no key loaded, the bytes from OFFSET on are the free values drawn (R144, U3). -/
theorem read_decryptBlocks_noKey {s : State} (noKey : s.key.keySize = 0) {i : Nat} (hi : i < s.inLen - s.offset) :
    (decryptBlocks s).outMem.read (s.offset + i) = Config.freeByte (s.draws + i) := by
  rw [decryptBlocks_of_noKey noKey, ← getD_freeBytes s.draws hi]
  exact Memory.read_writeBytes_add Memory.wf_nil s.offset _ (by rwa [length_freeBytes])

/-- Every address of a buffer in contract from OFFSET on is byte `j` of a block `i` (R56). -/
theorem State.inContract.exists_block {s : State} (hc : s.inContract) {a : Nat} (ho : s.offset ≤ a) (ha : a < s.inLen) :
    ∃ i j, i < blockCount s ∧ j < 16 ∧ a = s.offset + 16 * i + j := by
  obtain ⟨-, whole⟩ := hc
  unfold blockCount
  exact ⟨(a - s.offset) / 16, (a - s.offset) % 16, by omega, by omega, by omega⟩

theorem State.inContract.blockCount_pos {s : State} (hc : s.inContract) (block : s.offset < s.inLen) :
    0 < blockCount s := by
  obtain ⟨i, -, hi, -⟩ := hc.exists_block le_rfl block
  exact Nat.zero_lt_of_lt hi

/-- With a key loaded, byte `j` of block `i` of what DECRYPT leaves in OUT (R140, R141). -/
theorem execDecrypt_out_block {s t : State} (h : execDecrypt false s = .next t) (loaded : s.key.keySize ≠ 0) {i j : Nat}
    (hi : i < blockCount s) (hj : j < 16) :
    t.out (s.offset + 16 * i + j) = some ((plainOf (startDecrypt s) i).bytes.getD j 0) := by
  obtain ⟨-, hb, -⟩ := execDecrypt_next h
  have fits := offset_add_blockCount_le hb
  rw [execDecrypt_out_of_lt h (by rw [execDecrypt_outLen h]; omega), read_decryptBlocks_block loaded hi hj]

/-! ### What OUT depends on -/

/-- Where a key is loaded or there is no block, IN_LEN, OFFSET and the plaintext blocks determine what the blocks leave in
OUT. -/
theorem decryptBlocks_outMem_congr {s s' : State} (hc : s.inContract) (hc' : s'.inContract)
    (size : s.key.keySize = s'.key.keySize) (len : s.inLen = s'.inLen) (offset : s.offset = s'.offset)
    (keyed : s.key.keySize ≠ 0 ∨ s.offset = s.inLen)
    (plain : s.key.keySize ≠ 0 → ∀ i < blockCount s, plainOf (startDecrypt s) i = plainOf (startDecrypt s') i) :
    (decryptBlocks s).outMem = (decryptBlocks s').outMem := by
  refine Memory.ext_of_read (wf_decryptBlocks s) (wf_decryptBlocks s') fun a => ?_
  by_cases inside : s.offset ≤ a ∧ a < s.inLen
  · obtain ⟨lo, below⟩ := inside
    obtain ⟨i, j, hi, hj, rfl⟩ := hc.exists_block lo below
    have loaded : s.key.keySize ≠ 0 := keyed.resolve_right (by omega)
    have hi' : i < blockCount s' := by rwa [blockCount, ← len, ← offset]
    rw [read_decryptBlocks_block loaded hi hj, plain loaded i hi, offset,
      read_decryptBlocks_block (size ▸ loaded) hi' hj]
  · rw [read_decryptBlocks_outside hc (by omega), read_decryptBlocks_outside hc' (by omega)]

/-- STRIP looks at OUT and OUT_LEN alone. -/
theorem stripIf_congr {s s' : State} (strip : Bool) (len : s.outLen = s'.outLen) (mem : s.outMem = s'.outMem) :
    (stripIf strip s).outLen = (stripIf strip s').outLen ∧ (stripIf strip s).outMem = (stripIf strip s').outMem := by
  unfold stripIf unpad
  rw [len, mem]
  split_ifs
  · exact ⟨len, mem⟩
  · exact ⟨rfl, rfl⟩
  · exact ⟨len, mem⟩

/-- Under the conditions of `decryptBlocks_outMem_congr`, a DECRYPT of either form leaves the same OUT and OUT_LEN. -/
theorem execDecrypt_congr {strip : Bool} {s s' t t' : State} (h : execDecrypt strip s = .next t)
    (h' : execDecrypt strip s' = .next t') (size : s.key.keySize = s'.key.keySize) (len : s.inLen = s'.inLen)
    (offset : s.offset = s'.offset) (keyed : s.key.keySize ≠ 0 ∨ s.offset = s.inLen)
    (plain : s.key.keySize ≠ 0 → ∀ i < blockCount s, plainOf (startDecrypt s) i = plainOf (startDecrypt s') i) :
    t.outLen = t'.outLen ∧ t.outMem = t'.outMem := by
  obtain ⟨-, hb, rfl⟩ := execDecrypt_next h
  obtain ⟨-, hb', rfl⟩ := execDecrypt_next h'
  have mem := decryptBlocks_outMem_congr ((bufferContract_iff s).mp hb) ((bufferContract_iff s').mp hb') size len offset
    keyed plain
  exact stripIf_congr strip (by rw [decryptBlocks_outLen, decryptBlocks_outLen, len]) mem

/-! ### What a plaintext block depends on -/

section
variable {k k' : KeyState} {n : Nat} (rows : ∀ j < n, invksRow k j = invksRow k' j)
include rows

theorem invksQuad_congr {i : Nat} (hi : i + 4 ≤ n) : invksQuad k i = invksQuad k' i := by
  rw [invksQuad, invksQuad, rows i (by omega), rows (i + 1) (by omega), rows (i + 2) (by omega), rows (i + 3) (by omega)]

theorem fullRounds_congr (m : MixTables) {r ksp : Nat} (hr : ksp + 4 * r ≤ n) (p : Quad) :
    fullRounds m k r ksp p = fullRounds m k' r ksp p := by
  induction r generalizing ksp p with
  | zero => rfl
  | succ r ih => rw [fullRounds, fullRounds, invksQuad_congr rows (by omega), ih (by omega)]

end

/-- The key state enters a block by KEYSIZE and the rows of INVKS alone (R134 to R136). -/
theorem cipherBlock_congr (tb : Tables) {k k' : KeyState} (size : k.keySize = k'.keySize)
    (rows : ∀ j < 4 * (roundCount k + 1), invksRow k j = invksRow k' j) (w : Quad) :
    cipherBlock tb k w = cipherBlock tb k' w := by
  have count : roundCount k = roundCount k' := congrArg (· + 6) size
  have pos : 0 < roundCount k := Nat.succ_pos _
  simp only [cipherBlock, finalOf, roundsOf, ← count]
  rw [invksQuad_congr rows (by omega), invksQuad_congr rows (by omega), fullRounds_congr rows _ (by omega)]

theorem KeyState.derived.ksRows_eq {tb : Tables} {k : KeyState} (h : k.derived tb) (loaded : k.keySize ≠ 0) :
    k.ksRows = 4 * (roundCount k + 1) := by
  have key := h.isOf loaded
  rw [key.ksRows, ← key.keySize, scheduleRows, Nat.mul_comm, roundCount]

/-- Derived key states of one size with the same array INVKS decrypt every block alike. -/
theorem KeyState.derived.cipherBlock_eq (tb : Tables) {tbK tbK' : Tables} {k k' : KeyState} (h : k.derived tbK)
    (h' : k'.derived tbK') (loaded : k.keySize ≠ 0) (size : k.keySize = k'.keySize) (same : k.invks = k'.invks)
    (w : Quad) : cipherBlock tb k w = cipherBlock tb k' w := by
  have rows := h.ksRows_eq loaded
  have rows' := h'.ksRows_eq (size ▸ loaded)
  rw [roundCount, ← size, ← roundCount] at rows'
  refine cipherBlock_congr tb size (fun j hj => ?_) w
  rw [invksRow_eq_getD (by omega), invksRow_eq_getD (by omega), same]

/-- A block is read from its sixteen bytes. -/
theorem readBlock_congr {m m' : Memory} {a : Nat} (h : ∀ x, a ≤ x → x < a + 16 → m.read x = m'.read x) :
    readBlock m a = readBlock m' a := by
  simp (disch := omega) only [readBlock, Memory.readWord, h]

/-- A plaintext block of a DECRYPT depends on the key state, OFFSET, IVIN and the bytes of IN from OFFSET to the block's
end (R143). -/
theorem plainOf_startDecrypt_congr {s s' : State}
    (cipher : ∀ w, cipherBlock s.tables s.key w = cipherBlock s'.tables s'.key w)
    (offset : s.offset = s'.offset) (iv : s.ivin = s'.ivin) {i : Nat}
    (input : ∀ a, s.offset ≤ a → a < s.offset + 16 * (i + 1) → s.inMem.read a = s'.inMem.read a) :
    plainOf (startDecrypt s) i = plainOf (startDecrypt s') i := by
  have block : ∀ b ≤ i, readBlock s.inMem (s.offset + 16 * b) = readBlock s'.inMem (s'.offset + 16 * b) := fun b hb =>
    offset ▸ readBlock_congr fun x _ _ => input x (by omega) (by omega)
  have chain : chainOf (startDecrypt s) i = chainOf (startDecrypt s') i := by
    cases i with
    | zero => exact congrArg (fun v => ivOperand { s with ivin := v }) iv
    | succ i => exact block i (Nat.le_succ i)
  simp only [plainOf, chain, startDecrypt_tables, startDecrypt_key, startDecrypt_inMem, startDecrypt_work,
    block i le_rfl, cipher]

/-- The IV enters the first block alone, and there by XOR (R132, R144). -/
theorem getD_plainOf_startDecrypt_zero (s : State) {j : Nat} (hj : j < 16) :
    (plainOf (startDecrypt s) 0).bytes.getD j 0 =
      (cipherBlock s.tables s.key (readBlock s.inMem s.offset)).bytes.getD j 0 ^^^ s.ivin.toList.getD j 0 := by
  rw [plainOf, getD_xor_bytes _ _ hj, chainOf_startDecrypt_bytes]
  rfl

theorem xor_xor_xor_cancel_left (a b c : Byte) : a ^^^ b ^^^ (a ^^^ c) = b ^^^ c := by
  rw [BitVec.xor_comm a b, BitVec.xor_assoc, ← BitVec.xor_assoc a, BitVec.xor_self, BitVec.zero_xor]

/-! ### The invariant with a key loaded -/

/-- A key is loaded in no destroyed instance (R162). -/
theorem State.Inv.destroyed_of_key {s : State} (hs : s.Inv) (loaded : s.key.keySize ≠ 0) : s.destroyed = false := by
  refine Bool.eq_false_iff.mpr fun hd => loaded ?_
  obtain ⟨-, key, -⟩ := hs.cleared hd
  rw [key]
  rfl

end Sys2Proof.Machine
end

section
/-! The statements about DECRYPT settled: what it answers, and OUT by its bytes and what they depend on. -/

namespace Sys2Proof.Machine

/-- Settles O28: in contract the command completes, and its frame names what it writes. -/
theorem decryptCompletesAndWritesOnlyItsOwn : Obligations.DecryptCompletesAndWritesOnlyItsOwn := by
  intro s strip hd hc
  have h := execDecrypt_of_inContract strip hd hc
  exact ⟨_, _, _, _, h.trans (congrArg Host.Outcome.next (execDecrypt_frame h))⟩

/-- Settles O29: without STRIP the length is IN_LEN, and no block reaches below OFFSET. -/
theorem outputIsAsLongAsTheInputAndZeroBelowOffset : Obligations.OutputIsAsLongAsTheInputAndZeroBelowOffset := by
  intro s hd hc
  have h := execDecrypt_of_inContract false hd hc
  have len := execDecrypt_outLen h
  have le : s.offset ≤ s.inLen := hc.1
  refine ⟨_, h, len, fun a ha => ?_, fun a => ?_⟩
  · rw [execDecrypt_out_of_lt h (len ▸ Nat.lt_of_lt_of_le ha le), read_decryptBlocks_outside hc (.inl ha)]
  · rw [State.out_isSome_iff, len]

/-- Settles O30: there is no block, so every byte is the zero fill, the last one too, which shortens nothing. -/
theorem zeroBlocksGiveZeroBytesWhateverTheKey : Obligations.ZeroBlocksGiveZeroBytesWhateverTheKey := by
  intro s strip hd empty
  have hc : s.inContract := ⟨empty.le, by simp [empty]⟩
  have zero (a : Nat) : (decryptBlocks s).outMem.read a = 0x00 := read_decryptBlocks_outside hc (by omega)
  obtain ⟨t, h⟩ : ∃ t, execDecrypt strip s = .next t := ⟨_, execDecrypt_of_inContract strip hd hc⟩
  have len : t.outLen = s.inLen := by
    cases strip with
    | false => exact execDecrypt_outLen h
    | true => rw [execDecrypt_strip_outLen h, zero]; rfl
  refine ⟨t, h, execDecrypt_err h, len, fun a ha => ?_⟩
  rw [execDecrypt_out_of_lt h (len ▸ ha), zero]

/-- Settles O31: with a key loaded the invariant gives the tables of INIT and the key state of KEY, from which every block
is the standard's. -/
theorem decryptIsStandardAesCbc : Obligations.DecryptIsStandardAesCbc := by
  intro s strip hs loaded hc
  have hd := hs.destroyed_of_key loaded
  have tables := hs.tables hd
  have key := hs.derived.isOf loaded
  rw [tables] at key
  rw [key.ks]
  exact execDecrypt_isStandardCbc strip hd hc tables key loaded

/-- Settles O33: each plaintext block depends on the operands named, and the blocks, IN_LEN and OFFSET determine OUT. -/
theorem decryptIsAPureFunctionOfItsInputs : Obligations.DecryptIsAPureFunctionOfItsInputs := by
  intro s s' t t' strip hs hs' size same len offset iv input keyed h h'
  refine execDecrypt_congr h h' size len offset keyed fun loaded i hi => ?_
  obtain ⟨hd, hb, -⟩ := execDecrypt_next h
  obtain ⟨hd', -, -⟩ := execDecrypt_next h'
  have fits := offset_add_blockCount_le hb
  refine plainOf_startDecrypt_congr (fun w => ?_) offset iv fun a lo hi => input a lo (by omega)
  rw [hs.tables hd, hs'.tables hd']
  exact hs.derived.cipherBlock_eq initTables hs'.derived loaded size same w

/-- Settles O34: an earlier DECRYPT leaves the tables and the key state, so with the operands set every block is the
same. -/
theorem earlierDecryptLeavesNoTrace : Obligations.EarlierDecryptLeavesNoTrace := by
  intro s t u v first second m n o iv loaded h hu hv
  rw [execDecrypt_frame h] at hu
  exact execDecrypt_congr hu hv rfl rfl rfl (.inl loaded) fun _ _ _ => rfl

/-- Settles O35: the chain value of every later block is a ciphertext block, and that of the first is the IV. -/
theorem ivReachesOnlyTheFirstBlock : Obligations.IvReachesOnlyTheFirstBlock := by
  intro s t t' iv loaded h h'
  obtain ⟨-, hb, -⟩ := execDecrypt_next h
  have hc := (bufferContract_iff s).mp hb
  have len : t.outLen = s.inLen := execDecrypt_outLen h
  have len' : t'.outLen = s.inLen := execDecrypt_outLen (s := { s with ivin := iv }) h'
  have byte {i j : Nat} (hi : i < blockCount s) (hj : j < 16) := execDecrypt_out_block h loaded hi hj
  have byte' {i j : Nat} (hi : i < blockCount s) (hj : j < 16) :=
    execDecrypt_out_block (s := { s with ivin := iv }) h' loaded hi hj
  refine ⟨fun a ha => ?_, fun j hj block => ⟨_, _, byte (i := 0) ?_ hj, byte' (i := 0) ?_ hj, ?_⟩⟩
  · by_cases inside : a < s.inLen
    · obtain ⟨i, j, hi, hj, rfl⟩ := hc.exists_block (by omega) inside
      obtain ⟨i, rfl⟩ : ∃ k, k + 1 = i := ⟨i - 1, by omega⟩
      -- both sides name the same ciphertext blocks and no IV
      exact (byte hi hj).trans (byte' hi hj).symm
    · exact (readOut_none (by omega)).trans (readOut_none (by omega)).symm
  · exact hc.blockCount_pos block
  · exact hc.blockCount_pos block
  · rw [getD_plainOf_startDecrypt_zero _ hj, getD_plainOf_startDecrypt_zero _ hj]
    exact xor_xor_xor_cancel_left _ _ _

/-- Settles O37: from OFFSET on the blocks leave the free values, and the last of them is what STRIP takes off. -/
theorem noKeyGivesFreeBytesAndNoError : Obligations.NoKeyGivesFreeBytesAndNoError := by
  intro s hd noKey hc block
  have h := execDecrypt_of_inContract false hd hc
  have hu := execDecrypt_of_inContract true hd hc
  have free {i : Nat} := read_decryptBlocks_noKey noKey (i := i)
  refine ⟨⟨_, h, rfl, execDecrypt_outLen h, fun i hi => ?_⟩, ⟨_, hu, rfl, ?_, fun i hi ha => ?_⟩⟩
  · rw [execDecrypt_out_of_lt h (by rw [execDecrypt_outLen h]; omega), free hi]
  · rw [execDecrypt_strip_outLen hu, show s.inLen - 1 = s.offset + (s.inLen - s.offset - 1) by omega, free (by omega)]
  · rw [execDecrypt_out_of_lt hu ha, free hi]

/-- Settles O27: the buffer is out of contract, which the command tests before anything else. -/
theorem decryptOutOfContractIsRefused : Obligations.DecryptOutOfContractIsRefused := by
  intro s strip hd out
  refine execDecrypt_of_not_inContract strip hd ?_
  rintro ⟨le, whole⟩
  omega

end Sys2Proof.Machine
end

section
/-! The statement about the padding stripper settled: DECRYPT.S against DECRYPT from the same state (R150 to R154). -/

namespace Sys2Proof.Machine

/-- DECRYPT.S leaves no more bytes than DECRYPT (R151). -/
theorem execDecrypt_strip_outLen_le {s t u : State} (h : execDecrypt false s = .next t)
    (hu : execDecrypt true s = .next u) : u.outLen ≤ t.outLen := by
  rw [execDecrypt_strip_outLen hu, execDecrypt_outLen h]
  exact Nat.sub_le _ _

/-- What DECRYPT.S takes off is the value of the last byte that DECRYPT leaves, down to no byte left (R151, R152). -/
theorem execDecrypt_strip_outLen_of_last {s t u : State} (h : execDecrypt false s = .next t)
    (hu : execDecrypt true s = .next u) {p : Byte} (pos : 0 < t.outLen) (last : t.out (t.outLen - 1) = some p) :
    u.outLen = t.outLen - p.toNat := by
  rw [execDecrypt_out_of_lt h (Nat.sub_one_lt_of_lt pos), execDecrypt_outLen h] at last
  rw [execDecrypt_strip_outLen hu, Option.some.inj last, execDecrypt_outLen h]

/-- Settles O36: the three clauses about the last byte are one truncated subtraction, and both forms keep the bytes the
blocks left. That a key is loaded or no block is there is not used. -/
theorem stripShortensByTheLastByte : Obligations.StripShortensByTheLastByte := by
  intro s hd hc _
  obtain ⟨t, h⟩ : ∃ t, execDecrypt false s = .next t := ⟨_, execDecrypt_of_inContract false hd hc⟩
  obtain ⟨u, hu⟩ : ∃ u, execDecrypt true s = .next u := ⟨_, execDecrypt_of_inContract true hd hc⟩
  have le := execDecrypt_strip_outLen_le h hu
  refine ⟨t, u, h, hu, fun empty => Nat.le_zero.mp (empty ▸ le), fun p pos last => ?_, fun a ha => ?_, fun a ha => ?_⟩
  · rw [execDecrypt_strip_outLen_of_last h hu pos last]
    exact ⟨fun zero => by simp [zero], fun _ _ => rfl, fun overrun => Nat.sub_eq_zero_of_le overrun.le⟩
  · rw [execDecrypt_out_of_lt hu ha, execDecrypt_out_of_lt h (Nat.lt_of_lt_of_le ha le)]
  · exact readOut_none ha

end Sys2Proof.Machine
end

section
/-! The statements about the lifecycle settled: what DESTROY erases (R160 to R163), and that nothing but the reset input
leaves the destroyed state (R164). -/

namespace Sys2Proof.Machine

/-! ### What DESTROY erases -/

/-- The next state of DESTROY, which every state has (R160). -/
theorem execDestroy_eq (s : State) :
    execDestroy s = .next { s with
      tables := clearTables s.tables, key := clearKey, work := clearWork s.work, outMem := [], outLen := 0,
      tablesReady := false, keyLoaded := false, destroyed := true, err := 0 } := rfl

@[simp] theorem lookup_zeroTable (x : Byte) : lookup zeroTable x = 0 := by
  simp only [lookup, zeroTable, Vector.getElem_replicate]

/-- Storage cells that were overwritten with 0 hold nothing else (R160). -/
theorem eq_zero_of_mem_zeroCells {n : Nat} {w : Word} (h : w ∈ (Vector.replicate n (0 : Word)).toList) : w = 0 := by
  rw [Vector.toList_replicate] at h
  exact List.eq_of_mem_replicate h

/-- STATUS with the flags 0, 0, 1 and ERR = 0 (R33). -/
theorem status_of_destroyed {s : State} (ready : s.tablesReady = false) (loaded : s.keyLoaded = false)
    (hd : s.destroyed = true) (err : s.err = 0) : s.status = 0x04 := by
  rw [State.status, ready, loaded, hd, err]
  decide

/-! ### What a destroyed instance does -/

/-- The only command that goes on while DESTROYED = 1 is DESTROY (R164, R196). -/
theorem eq_destroy_of_destroyed {i : Instr} {s t : State} (hd : s.destroyed = true) (h : exec i s = .next t) :
    i = .destroy := by
  cases i with
  | expandkey =>
    obtain ⟨live, -⟩ := execExpandkey_next h
    exact absurd (live.symm.trans hd) Bool.false_ne_true
  | decrypt strip =>
    obtain ⟨live, -⟩ := execDecrypt_next h
    exact absurd (live.symm.trans hd) Bool.false_ne_true
  | destroy => rfl

/-- A command that goes on leaves DESTROYED set (R31). -/
theorem exec_keeps_destroyed {i : Instr} {s t : State} (hd : s.destroyed = true) (h : exec i s = .next t) :
    t.destroyed = true := by
  obtain rfl := eq_destroy_of_destroyed hd h
  rw [execDestroy_next h]

/-- A host access other than the reset input does not write DESTROYED (R31). -/
theorem hostAccess_destroyed {x : HostAction} {s t : State} (hx : x ≠ .reset) (h : hostAccess x s = .next t) :
    t.destroyed = s.destroyed := by
  rcases hostAccess_frame h with ⟨reset, -⟩ | e | ⟨a, b, -, rfl⟩
  · exact absurd reset hx
  · rw [e]
  · rfl

/-! ### The statements -/

/-- Settles O41: a command that goes on is a second DESTROY, an illegal byte writes ERR only, and the host's access is
not the reset input. -/
theorem onlyResetLeavesTheDestroyedState : Obligations.OnlyResetLeavesTheDestroyedState := by
  intro s t hd h noReset
  rcases step_next h with ⟨b, i, -, -, he⟩ | ⟨b, e, -, -, rfl⟩ | ⟨x, xs, hc, hh, ha⟩ | ⟨-, -, rfl⟩
  · exact exec_keeps_destroyed (s := { s with cmd := none }) hd he
  · exact hd
  · have hx : x ≠ .reset := fun reset => noReset xs hc (reset ▸ hh)
    exact (hostAccess_destroyed hx ha).trans hd
  · exact hd

/-- Settles O38: the tables are tables of zeros, the cells are overwritten with 0 and the counts are 0, so that the
arrays are empty; what is left is the next state's own fields. -/
theorem destroyClearsTablesKeysOutputAndWorkingWords :
    Obligations.DestroyClearsTablesKeysOutputAndWorkingWords := by
  intro s
  refine ⟨_, execDestroy_eq s, fun x => ?_, fun _ => eq_zero_of_mem_zeroCells, fun _ => eq_zero_of_mem_zeroCells,
    fun _ => eq_zero_of_mem_zeroCells, ?_⟩
  · simp only [clearTables, zeroMix, lookup_zeroTable, and_self]
  · exact ⟨rfl, rfl, rfl, rfl, rfl, rfl, rfl, rfl, rfl, rfl, rfl, rfl, rfl, rfl, rfl,
      status_of_destroyed rfl rfl rfl rfl, rfl, rfl, rfl, rfl, rfl, rfl, rfl, rfl, rfl, rfl, rfl, rfl, rfl, rfl⟩

/-- Settles O39: of the fields in which the two states may differ, the next state of DESTROY names none. -/
theorem destroyForgetsKeyAndPlaintext : Obligations.DestroyForgetsKeyAndPlaintext := by
  intro s s' same
  rw [same]
  exact (execDestroy_eq _).trans (execDestroy_eq s).symm

end Sys2Proof.Machine
end

section
/-! How a command byte can end (R170 to R175): the statements about ERR and about the commands that go on settled. -/

namespace Sys2Proof.Machine

/-! ### The outcomes and their codes -/

/-- No two commands share a byte (R72). -/
theorem encodeCmd_injective : Function.Injective encodeCmd := fun i j same =>
  Except.ok.inj ((decodeCmd_encodeCmd i).symm.trans (same ▸ decodeCmd_encodeCmd j))

/-- A byte that does not decode is none of the four of R72. -/
theorem ne_encodeCmd_of_decodeCmd_error {b : Byte} {e : DecodeError} (h : decodeCmd b = .error e) (i : Instr) :
    b ≠ encodeCmd i := by
  rintro rfl
  exact nomatch h.symm.trans (decodeCmd_encodeCmd i)

/-- A command that goes on succeeds, or is an EXPANDKEY of an invalid length and fails with InvalidKeySize (R170). -/
theorem exec_outcome {i : Instr} {s t : State} (h : exec i s = .next t) :
    (t.err = 0 ∧ (i = .expandkey → s.validKey)) ∨
      (i = .expandkey ∧ ¬ s.validKey ∧ t = { s with err := errInvalidKeySize }) := by
  cases i with
  | expandkey =>
    rw [s.validKey_iff]
    obtain ⟨-, ⟨bad, rfl⟩ | ⟨good, -, rfl⟩ | ⟨good, -, rfl⟩⟩ := execExpandkey_next h
    · exact .inr ⟨rfl, bad ▸ Bool.false_ne_true, rfl⟩
    · exact .inl ⟨rfl, fun _ => good⟩
    · exact .inl ⟨rfl, fun _ => good⟩
  | decrypt strip => exact .inl ⟨execDecrypt_err h, nofun⟩
  | destroy => exact .inl ⟨by rw [execDestroy_next h], nofun⟩

/-- A byte that is performed is a command that succeeds, an EXPANDKEY that fails, or no command (R170). -/
theorem runCommand_outcome {b : Byte} {s t : State} (h : runCommand b s = .next t) :
    ((b = 1 ∨ b = 2 ∨ b = 3 ∨ b = 6) ∧ (b = 1 → s.validKey) ∧ t.err = 0) ∨
      (b = 1 ∧ ¬ s.validKey ∧ t = { s with err := errInvalidKeySize }) ∨
      ((b ≠ 1 ∧ b ≠ 2 ∧ b ≠ 3 ∧ b ≠ 6) ∧ t = { s with err := errIllegalCommand }) := by
  obtain ⟨i, hd, he⟩ | ⟨e, hd, rfl⟩ := runCommand_next h
  · obtain rfl := (decodeCmd_eq_ok_iff b i).mp hd
    obtain ⟨ok, valid⟩ | ⟨rfl, bad, rfl⟩ := exec_outcome he
    · exact .inl ⟨encodeCmd_cases i, fun one => valid (encodeCmd_injective (a₂ := .expandkey) one), ok⟩
    · exact .inr (.inl ⟨rfl, bad, rfl⟩)
  · have other := ne_encodeCmd_of_decodeCmd_error hd
    exact .inr (.inr ⟨⟨other .expandkey, other (.decrypt false), other .destroy, other (.decrypt true)⟩, rfl⟩)

/-! ### The commands that go on -/

theorem execExpandkey_of_destroyed {s : State} (hd : s.destroyed = true) :
    execExpandkey s = .refused .destroyedInstance := if_pos hd

theorem execDecrypt_of_destroyed {s : State} (strip : Bool) (hd : s.destroyed = true) :
    execDecrypt strip s = .refused .destroyedInstance := if_pos hd

/-- EXPANDKEY goes on wherever DESTROYED = 0: it fails, is short-circuited or expands (R110). -/
theorem execExpandkey_goes_on {s : State} (hd : s.destroyed = false) : ∃ t, execExpandkey s = .next t := by
  by_cases hv : s.validKey
  · by_cases hh : s.holdsKey
    · exact ⟨_, execExpandkey_of_holdsKey hd hv hh⟩
    · exact ⟨_, execExpandkey_of_newKey hd hv hh⟩
  · exact ⟨_, execExpandkey_of_invalid hd hv⟩

theorem exec_of_commandDefined {i : Instr} {s : State} (h : commandDefined i s = true) : ∃ t, exec i s = .next t := by
  cases i with
  | expandkey => exact execExpandkey_goes_on (by simpa [commandDefined] using h)
  | decrypt strip =>
    obtain ⟨hd, hc⟩ : s.destroyed = false ∧ s.inContract := by simpa [commandDefined, bufferContract_iff] using h
    exact ⟨_, execDecrypt_of_inContract strip hd hc⟩
  | destroy => exact ⟨_, execDestroy_eq s⟩

theorem exec_of_not_commandDefined {i : Instr} {s : State} (h : commandDefined i s = false) :
    ∃ r, exec i s = .refused r := by
  cases i with
  | expandkey => exact ⟨_, execExpandkey_of_destroyed (by simpa [commandDefined] using h)⟩
  | decrypt strip =>
    cases hd : s.destroyed with
    | true => exact ⟨_, execDecrypt_of_destroyed strip hd⟩
    | false =>
      have hc : ¬ s.inContract := by simpa [commandDefined, hd, ← bufferContract_iff] using h
      exact ⟨_, execDecrypt_of_not_inContract strip hd hc⟩
  | destroy => exact absurd h.symm Bool.false_ne_true

/-- The commands that `exec` gives a next state are those of `commandDefined` (R147, R196). -/
theorem exec_next_iff (i : Instr) (s : State) : (∃ t, exec i s = .next t) ↔ commandDefined i s = true := by
  refine ⟨fun ⟨t, h⟩ => ?_, exec_of_commandDefined⟩
  by_contra undefined
  obtain ⟨r, hr⟩ := exec_of_not_commandDefined (Bool.eq_false_iff.mpr undefined)
  exact nomatch h.symm.trans hr

/-- No command raises a fault (R57, R175). -/
theorem exec_ne_fault (i : Instr) (s : State) (f : Fault) : exec i s ≠ .fault f := by
  cases hdef : commandDefined i s with
  | true =>
    obtain ⟨t, ht⟩ := exec_of_commandDefined hdef
    exact ht ▸ nofun
  | false =>
    obtain ⟨r, hr⟩ := exec_of_not_commandDefined hdef
    exact hr ▸ nofun

theorem commandDefined_iff (i : Instr) (s : State) :
    commandDefined i s = true ↔ i = .destroy ∨ (s.destroyed = false ∧ (i = .expandkey ∨ s.inContract)) := by
  cases i <;> simp [commandDefined, bufferContract_iff]

/-! ### The statements -/

/-- Settles O43: the three outcomes of a byte exclude each other, and each has its own code. -/
theorem everyOutcomeAndItsCode : Obligations.EveryOutcomeAndItsCode := by
  intro b s t h
  obtain ⟨command, valid, ok⟩ | ⟨rfl, bad, rfl⟩ | ⟨other, rfl⟩ := runCommand_outcome h
  · rw [ok]
    refine ⟨.inl rfl, ⟨nofun, fun ⟨one, bad⟩ => absurd (valid one) bad⟩, ⟨nofun, ?_⟩, fun no => absurd rfl no⟩
    rintro ⟨n1, n2, n3, n6⟩
    rcases command with h | h | h | h <;> contradiction
  · exact ⟨.inr (.inl rfl), ⟨fun _ => ⟨rfl, bad⟩, fun _ => rfl⟩, ⟨nofun, fun no => absurd rfl no.1⟩, fun _ => rfl⟩
  · exact ⟨.inr (.inr rfl), ⟨nofun, fun one => absurd one.1 other.1⟩, ⟨fun _ => other, fun _ => rfl⟩, fun _ => rfl⟩

/-- Settles O44: the commands that go on are those the model calls defined, and every other is refused. -/
theorem commandsGoOnExactlyOutsideTheRefusedCases : Obligations.CommandsGoOnExactlyOutsideTheRefusedCases :=
  fun i s => ⟨(exec_next_iff i s).trans (commandDefined_iff i s), exec_ne_fault i s⟩

end Sys2Proof.Machine
end

section
/-! The three lifecycle states and runs: which flags and STATUS bits each state has (R33, R195), when EXPANDKEY leads to
KEYED, and that what a state has and every step keeps, every state of its runs has. -/

namespace Sys2Proof.Machine

/-! ### Flags and STATUS -/

/-- The flags TABLES_READY, KEY_LOADED and DESTROYED of a lifecycle state, the second column of R195. -/
def Lifecycle.flags : Lifecycle → Bool × Bool × Bool
  | .noKey     => (true, false, false)
  | .keyed     => (true, true, false)
  | .destroyed => (false, false, true)

/-- STATUS bits 2:0 of a lifecycle state (R195). -/
def Lifecycle.statusBits : Lifecycle → BitVec 3
  | .noKey     => 0b001
  | .keyed     => 0b011
  | .destroyed => 0b100

/-- Each lifecycle state is one combination of the flags. -/
theorem State.lifecycle_eq_some_iff (s : State) (l : Lifecycle) :
    s.lifecycle = some l ↔ (s.tablesReady, s.keyLoaded, s.destroyed) = l.flags := by
  unfold State.lifecycle
  generalize s.tablesReady = ready, s.keyLoaded = loaded, s.destroyed = destroyed
  revert ready loaded destroyed
  cases l <;> decide

/-- STATUS is ERR, a zero, and the three bits of the lifecycle state (R33). -/
theorem status_of_lifecycle {s : State} {l : Lifecycle} (h : s.lifecycle = some l) :
    s.status = s.err ++ (0#1 ++ l.statusBits) := by
  have flags := (s.lifecycle_eq_some_iff l).mp h
  have ready : s.tablesReady = l.flags.1 := congrArg (·.1) flags
  have loaded : s.keyLoaded = l.flags.2.1 := congrArg (·.2.1) flags
  have destroyed : s.destroyed = l.flags.2.2 := congrArg (·.2.2) flags
  rw [State.status, ready, loaded, destroyed]
  cases l <;> rfl

theorem statusBits_of_lifecycle {s : State} {l : Lifecycle} (h : s.lifecycle = some l) :
    s.status.extractLsb' 0 3 = l.statusBits := by
  have low : (0#1 ++ l.statusBits).extractLsb' 0 3 = l.statusBits := BitVec.extractLsb'_append_eq_right
  rw [status_of_lifecycle h, BitVec.extractLsb'_append_eq_of_add_le (by decide), low]

/-- STATUS after the reset input is that of the state after reset: it shows nothing that the input keeps (R190). -/
theorem status_resetCore (s : State) : (resetCore s).status = 0x01 :=
  show State.reset.status = 0x01 from rfl

/-! ### The lifecycle state in the states of the invariant -/

/-- A destroyed instance is in DESTROYED. -/
theorem State.Inv.lifecycle_destroyed {s : State} (hs : s.Inv) (hd : s.destroyed = true) :
    s.lifecycle = some .destroyed := by
  obtain ⟨ready, unloaded⟩ := s.lifecycle_isSome_iff.mp hs.lifecycle
  rw [State.lifecycle_eq_some_iff, ready, unloaded hd, hd]
  rfl

/-- An instance that is not destroyed and holds a key is in KEYED (R27). -/
theorem State.Inv.lifecycle_keyed {s : State} (hs : s.Inv) (hd : s.destroyed = false) (loaded : s.key.keySize ≠ 0) :
    s.lifecycle = some .keyed := by
  obtain ⟨ready, -⟩ := s.lifecycle_isSome_iff.mp hs.lifecycle
  rw [State.lifecycle_eq_some_iff, ready, hs.keyLoaded.mpr loaded, hd]
  rfl

/-- In NOKEY no key is held (R27). -/
theorem State.Inv.keySize_of_noKey {s : State} (hs : s.Inv) (h : s.lifecycle = some .noKey) : s.key.keySize = 0 := by
  by_contra loaded
  have flags := (s.lifecycle_eq_some_iff .noKey).mp h
  have unloaded : s.keyLoaded = false := congrArg (·.2.1) flags
  exact Bool.false_ne_true (unloaded.symm.trans (hs.keyLoaded.mpr loaded))

theorem lifecycle_ne_destroyed {s : State} (hd : s.destroyed = false) : s.lifecycle ≠ some .destroyed := by
  intro h
  have flags := (s.lifecycle_eq_some_iff .destroyed).mp h
  have gone : s.destroyed = true := congrArg (·.2.2) flags
  exact Bool.false_ne_true (hd.symm.trans gone)

/-! ### EXPANDKEY -/

/-- With a valid key operand only a state that holds a key can hold that key: a short-circuit in NOKEY cannot occur. -/
theorem State.holdsKey.keySize_ne_zero {s : State} (hh : s.holdsKey) (hv : s.validKey) : s.key.keySize ≠ 0 := by
  obtain ⟨size, -⟩ := hh
  have := hv.words
  omega

/-- An EXPANDKEY that succeeds leads to KEYED (R195). -/
theorem execExpandkey_lifecycle {s t : State} (hs : s.Inv) (h : execExpandkey s = .next t) (ok : t.err = 0) :
    t.lifecycle = some .keyed := by
  obtain ⟨hd, -⟩ := execExpandkey_next h
  obtain ⟨hv, -, key⟩ := execExpandkey_isOf hs h ok
  have live : t.destroyed = false := by rw [execExpandkey_frame h]; exact hd
  have loaded : t.key.keySize ≠ 0 := by
    have := hv.words
    rw [key.keySize, length_keyOperand]
    omega
  exact (execExpandkey_keeps_inv hs h).lifecycle_keyed live loaded

/-! ### Runs -/

/-- A run of one step more takes a step that goes on, and runs on from there. -/
theorem run_succ_next {n : Nat} {s t : State} (h : Host.Core.run Sys2Proof.core (n + 1) s = .next t) :
    ∃ u, step s = .next u ∧ Host.Core.run Sys2Proof.core n u = .next t := by
  have first : Sys2Proof.core.step s = step s := rfl
  simp only [Host.Core.run, first] at h
  cases hu : step s with
  | next u => exact ⟨u, rfl, by simpa only [hu] using h⟩
  | fault r | refused r => simp [hu] at h

/-- What holds of a state and is kept by every step holds of every state that a run from it reaches. -/
theorem run_keeps {P : State → Prop} (keeps : ∀ u v, P u → step u = .next v → P v) {n : Nat} {s t : State} (hs : P s)
    (h : Host.Core.run Sys2Proof.core n s = .next t) : P t := by
  induction n generalizing s with
  | zero =>
    cases h
    exact hs
  | succ n ih =>
    obtain ⟨u, hu, hrun⟩ := run_succ_next h
    exact ih (keeps s u hs hu) hrun

end Sys2Proof.Machine
end

section
/-! The statements about reset, the lifecycle and what the host can reach settled (R190 to R196). -/

namespace Sys2Proof.Machine

/-- Settles O42: the lifecycle state fixes flags and STATUS bits; an EXPANDKEY that succeeds leaves the key state of its
operand and one that fails writes ERR only; of the rest only DESTROY and the reset input write a flag. -/
theorem lifecycleMovesAsTheTableSays : Obligations.LifecycleMovesAsTheTableSays := by
  intro s hs
  refine ⟨?_, fun t h => ?_, fun strip t h => ?_, fun t h => ?_, fun b e t hd h => ?_, fun t h => ?_⟩
  · obtain ⟨l, hl⟩ := Option.isSome_iff_exists.mp hs.lifecycle
    have bits := statusBits_of_lifecycle hl
    cases l with
    | noKey => exact .inl ⟨hl, bits⟩
    | keyed => exact .inr (.inl ⟨hl, bits⟩)
    | destroyed => exact .inr (.inr ⟨hl, bits⟩)
  · obtain ⟨hd, -⟩ := execExpandkey_next h
    refine ⟨lifecycle_ne_destroyed hd, fun ok => ?_, fun failed => ?_⟩
    · obtain ⟨hv, -, key⟩ := execExpandkey_isOf hs h ok
      refine ⟨execExpandkey_lifecycle hs h ok, fun noKey hh => hh.keySize_ne_zero hv (hs.keySize_of_noKey noKey),
        fun hh => ?_, fun _ => key.words⟩
      exact (Host.Outcome.next.inj ((execExpandkey_of_holdsKey hd hv hh).symm.trans h)).symm
    · obtain ⟨ok, -⟩ | ⟨-, -, rfl⟩ := exec_outcome h
      · exact absurd ok failed
      · exact ⟨rfl, rfl⟩
  · obtain ⟨hd, -⟩ := execDecrypt_next h
    rw [execDecrypt_frame h]
    exact ⟨lifecycle_ne_destroyed hd, rfl, rfl⟩
  · rw [execDestroy_next h]
    rfl
  · cases (runCommand_of_error hd s).symm.trans h
    exact ⟨rfl, rfl⟩
  · cases h
    rfl

/-- Settles O40: DESTROYED is tested before any operand; DESTROY and an illegal byte leave the instance destroyed, so
that STATUS shows 0b100 and their ERR, and the reset input ignores the state. -/
theorem destroyedInstanceRefusesKeyAndDecrypt : Obligations.DestroyedInstanceRefusesKeyAndDecrypt := by
  refine ⟨fun s strip hd => ⟨execExpandkey_of_destroyed hd, execDecrypt_of_destroyed strip hd⟩, fun s hs hd => ?_⟩
  have gone : ({ s with err := errIllegalCommand } : State).lifecycle = some .destroyed := hs.lifecycle_destroyed hd
  obtain ⟨-, -, -, -, noOutput⟩ := hs.cleared hd
  refine ⟨⟨_, execDestroy_eq s, status_of_destroyed rfl rfl rfl rfl⟩, fun b h1 h2 h3 h6 => ?_, rfl,
    congrArg some noOutput, ⟨_, rfl, status_resetCore s⟩⟩
  obtain ⟨e, he⟩ := decodeCmd_error h1 h2 h3 h6
  have status : errIllegalCommand ++ (0#1 ++ Lifecycle.destroyed.statusBits) = 0x24#8 := rfl
  exact ⟨_, runCommand_of_error he s, (status_of_lifecycle gone).trans status⟩

/-- Settles O51: the reset state with any accesses to come satisfies the invariant, every step keeps it, and it puts
the flags in one of the three combinations. -/
theorem reachableStatesSatisfyTheInvariant : Obligations.ReachableStatesSatisfyTheInvariant := by
  intro xs n s h
  have start : ({ State.reset with host := xs } : State).Inv := reset_inv.of_frame rfl reset_inv.err reset_inv.inForm
  have hs : s.Inv := run_keeps stepKeepsTheInvariant start h
  obtain ⟨l, hl⟩ := Option.isSome_iff_exists.mp hs.lifecycle
  have flags := (s.lifecycle_eq_some_iff l).mp hl
  refine ⟨hs, ?_⟩
  cases l with
  | noKey => exact .inl flags
  | keyed => exact .inr (.inl flags)
  | destroyed => exact .inr (.inr flags)

/-- Settles O15: where no command waits, the step is the reset input, at the state whose list has moved on. -/
theorem resetInputReturnsToTheResetState : Obligations.ResetInputReturnsToTheResetState :=
  fun _ _ hc hh => step_of_host hc hh

end Sys2Proof.Machine
end
